-- ==== Sys2Proof/Syntax.lean ====
section
/-! DEFINITION. The commands of the block, one constructor per row of the op map (30_encoding.md R74). A command has no
operand field: no register specifier, no immediate, no mode bit (R70, R72). -/

namespace Sys2Proof

/-- The six operations of 30_encoding.md R74; there is no other (R77, R78). -/
inductive Instr where
  /-- PACK, `0x00` (40_transpose.md R91). -/
  | pack
  /-- UNPACK, `0x01` (40_transpose.md R93). -/
  | unpack
  /-- PADENC, `0x02` (41_padding.md R114). -/
  | padenc
  /-- PADDEC, `0x03` (41_padding.md R115). -/
  | paddec
  /-- ENCODE, `0x04` (42_stream.md R131). -/
  | encode
  /-- DECODE, `0x05` (42_stream.md R139). -/
  | decode
  deriving DecidableEq, Repr

end Sys2Proof
end

