-- ==== Sys2Proof/Word.lean ====
section
/-! DEFINITION. The byte and the two fixed windows of the block (00_scope.md R5, R7; 10_state.md R13, R28). -/

namespace Sys2Proof

/-- A byte: 8 bits, unsigned (R5, R7). -/
abbrev Byte := BitVec 8

/-- Format G7, the 7-byte group (30_encoding.md R60), and the window register `W7` (10_state.md R13). -/
structure G7 where
  s0 : Byte
  s1 : Byte
  s2 : Byte
  s3 : Byte
  s4 : Byte
  s5 : Byte
  s6 : Byte
  deriving DecidableEq, Repr

/-- Format G8, the 8-byte group (30_encoding.md R61), and the window register `W8` (10_state.md R13);
`y0` is the H byte. -/
structure G8 where
  y0 : Byte
  y1 : Byte
  y2 : Byte
  y3 : Byte
  y4 : Byte
  y5 : Byte
  y6 : Byte
  y7 : Byte
  deriving DecidableEq, Repr

/-- The seven elements in index order. -/
def G7.toList (w : G7) : List Byte := [w.s0, w.s1, w.s2, w.s3, w.s4, w.s5, w.s6]

/-- The eight elements in index order. -/
def G8.toList (w : G8) : List Byte := [w.y0, w.y1, w.y2, w.y3, w.y4, w.y5, w.y6, w.y7]

/-- `W7[i]`; only the indices 0 to 6 exist (R13). -/
def G7.get (w : G7) : Fin 7 → Byte
  | 0 => w.s0 | 1 => w.s1 | 2 => w.s2 | 3 => w.s3 | 4 => w.s4 | 5 => w.s5 | 6 => w.s6

/-- `W8[k]`; only the indices 0 to 7 exist (R13). -/
def G8.get (w : G8) : Fin 8 → Byte
  | 0 => w.y0 | 1 => w.y1 | 2 => w.y2 | 3 => w.y3 | 4 => w.y4 | 5 => w.y5 | 6 => w.y6 | 7 => w.y7

/-- The group whose element `i` is `f i`. -/
def G7.ofFn (f : Nat → Byte) : G7 := ⟨f 0, f 1, f 2, f 3, f 4, f 5, f 6⟩

/-- The group whose element `k` is `f k`. -/
def G8.ofFn (f : Nat → Byte) : G8 := ⟨f 0, f 1, f 2, f 3, f 4, f 5, f 6, f 7⟩

/-- The flat view of `W7`: element k in bits 8k+7 down to 8k (10_state.md R28). -/
def G7.flat (w : G7) : BitVec 56 :=
  w.s0.setWidth 56 ||| (w.s1.setWidth 56 <<< 8) ||| (w.s2.setWidth 56 <<< 16) ||| (w.s3.setWidth 56 <<< 24) |||
    (w.s4.setWidth 56 <<< 32) ||| (w.s5.setWidth 56 <<< 40) ||| (w.s6.setWidth 56 <<< 48)

/-- The flat view of `W8`: element k in bits 8k+7 down to 8k (10_state.md R28). -/
def G8.flat (w : G8) : BitVec 64 :=
  w.y0.setWidth 64 ||| (w.y1.setWidth 64 <<< 8) ||| (w.y2.setWidth 64 <<< 16) ||| (w.y3.setWidth 64 <<< 24) |||
    (w.y4.setWidth 64 <<< 32) ||| (w.y5.setWidth 64 <<< 40) ||| (w.y6.setWidth 64 <<< 48) |||
    (w.y7.setWidth 64 <<< 56)

end Sys2Proof
end

