-- ==== Sys2Proof/Decode.lean ====
section
/-! DEFINITION. The decoder of the command word (30_encoding.md R70, R74, R77), total on any byte, and the encoder. -/

namespace Sys2Proof

/-- Why a byte is no command (30_encoding.md R77). -/
inductive Reserved where
  /-- One of bits 7:3 is set. Raised by `decode`; safe: the word is refused. -/
  | bitsSet (w : Byte)
  /-- Bits 7:3 are clear and OP is 6 or 7. Raised by `decode`; safe: the word is refused. -/
  | opUnassigned (w : Byte)
  deriving DecidableEq, Repr

/-- The `OP` field, bits 2:0 of `CMD` (10_state.md R17). -/
def opField (w : Byte) : BitVec 3 := w.extractLsb' 0 3

/-- The reserved field, bits 7:3 of `CMD` (10_state.md R17). -/
def reservedField (w : Byte) : BitVec 5 := w.extractLsb' 3 5

/-- The op map (30_encoding.md R74). -/
def opMap (op : BitVec 3) : Option Instr :=
  match op.toNat with
  | 0 => some .pack
  | 1 => some .unpack
  | 2 => some .padenc
  | 3 => some .paddec
  | 4 => some .encode
  | 5 => some .decode
  | _ => none

/-- The decoder of one command word: reserved words are rejected by name (30_encoding.md R77). -/
def decode (w : Byte) : Except Reserved Instr :=
  if reservedField w = 0#5 then
    match opMap (opField w) with
    | some i => .ok i
    | none => .error (.opUnassigned w)
  else .error (.bitsSet w)

/-- The number of an operation (30_encoding.md R74). -/
def opNumber : Instr → BitVec 3
  | .pack => 0
  | .unpack => 1
  | .padenc => 2
  | .paddec => 3
  | .encode => 4
  | .decode => 5

/-- The command word of an operation: bits 7:3 zero, `OP` in bits 2:0 (30_encoding.md R70). -/
def encode (i : Instr) : Byte := 0#5 ++ opNumber i

/-- The instruction the decoder reads from the table's bits `w` of `nbits` bits. A command is one 8-bit word
(30_encoding.md R70, R79): a wider row is none of the block's commands. -/
def decodeTableWord (nbits w : Nat) : Option Instr :=
  if nbits ≤ 8 ∧ w < 2 ^ nbits then (decode (BitVec.ofNat 8 w)).toOption else none

end Sys2Proof
end

