-- ==== Sys2Proof/Config.lean ====
section
/-! DEFINITION. What the spec leaves to an implementation: constants without a body, of which nothing can be
proved but what their types say. -/

namespace Sys2Proof

/-- `MAXLEN` (00_scope.md R5): "a natural number at least 8, or unbounded", where `none` is unbounded. It is a
parameter of the model and no field of the state (10_state.md R12). No body: a theorem holds for every MAXLEN.
Log entry 1. -/
opaque Config.maxLen : Option { n : Nat // 8 ≤ n }

/-- The free value in the `CODE` field of a read of `STATUS` made while `BUSY` = 1, where "the value of `CODE` ...
is not defined" (10_state.md R19); the argument is the number of the draw. No body. Log entry 7. -/
opaque Config.busyCode : Nat → BitVec 2

/-- `n ≤ MAXLEN`. A length of at most 8 fits whatever MAXLEN is, because MAXLEN is at least 8 (00_scope.md R5); the
first test says so, and lets such a length be decided without knowing MAXLEN. -/
def Config.fits (n : Nat) : Bool :=
  decide (n ≤ 8) ||
    match Config.maxLen with
    | none => true
    | some m => decide (n ≤ m.val)

end Sys2Proof
end

