-- ==== Sys2Proof/Machine/State.lean ====
section
/-! DEFINITION. The state of one block (10_state.md R11), the ways a step can stop, and the state right after reset
(70_reset_and_hazards.md R190). Plain data throughout. -/

namespace Sys2Proof.Machine

/-- `PHASE` (10_state.md R15). -/
inductive Phase where
  | idle
  | busy
  deriving DecidableEq, Repr

/-- `STATUS.CODE` (10_state.md R19): 0, 1 and 2. The value 3 "is never produced" and is left out
(93_implementation_defined.md U10; log entry 18). -/
inductive ResultCode where
  | ok
  | invalidLength
  | invalidPadding
  deriving DecidableEq, Repr

/-- The error record (30_encoding.md R69, 60_exceptions.md R160): closed, two variants, each carrying the length the
decoder received. -/
inductive DecodeError where
  | invalidLength (receivedLength : Nat)
  | invalidPadding (receivedLength : Nat)
  deriving DecidableEq, Repr

/-- One of the two byte spaces (20_memory.md R40, R41): the cells that hold a value, by index. The canonical form is
`Memory.wf`; an index that is not listed has NO value (20_memory.md R43, 70_reset_and_hazards.md R191; log entries 5
and 6). -/
abbrev Memory := List Host.Cell

/-- What the host can do to the block (10_state.md R16, 20_memory.md R40, R41, 70_reset_and_hazards.md R190, R205). -/
inductive HostAction where
  /-- Write the value `v` to the register numbered `n` (10_state.md R16). -/
  | writeReg (n v : Nat)
  /-- Read the register numbered `n` (10_state.md R16). -/
  | readReg (n : Nat)
  /-- Write one byte of the input space (20_memory.md R40). -/
  | writeIn (a : Nat) (v : Byte)
  /-- Read one byte of the output space (20_memory.md R41). -/
  | readOut (a : Nat)
  /-- Apply reset (70_reset_and_hazards.md R190, R192). -/
  | reset
  deriving DecidableEq, Repr

/-- One move of the system of two agents (10_state.md R10). -/
inductive Move where
  /-- The core moves: it runs the command that was started, or stays idle. -/
  | core
  /-- The host acts. -/
  | act (a : HostAction)
  deriving DecidableEq, Repr

/-- What a read of the host answered. -/
inductive Observation where
  | reg (n v : Nat)
  | outByte (a : Nat) (v : Byte)
  deriving DecidableEq, Repr

/-- The host, the block's environment (10_state.md R10). The model's own record, not a piece of the block: the moves
still to come, oldest first, and what the host has read, newest first. Log entry 3. -/
structure HostAgent where
  todo : List Move
  seen : List Observation
  deriving DecidableEq, Repr

/-- The complete state of one block (10_state.md R11), and the model's own two fields `host` and `draws`. -/
structure State where
  /-- `IN` (20_memory.md R40). -/
  inp : Memory
  /-- `OUT` (20_memory.md R41, R43). -/
  out : Memory
  /-- `W7` (10_state.md R13). -/
  w7 : G7
  /-- `W8` (10_state.md R13). -/
  w8 : G8
  /-- `GI` (10_state.md R14). -/
  gi : Nat
  /-- `PHASE` (10_state.md R15). -/
  phase : Phase
  /-- `CMD`, register 0 (10_state.md R17). -/
  cmd : Byte
  /-- `LEN`, register 1 (10_state.md R18). -/
  len : Nat
  /-- `STATUS.CODE`, bits 1:0 of register 2 (10_state.md R19). -/
  code : ResultCode
  /-- `ERRLEN`, register 3 (10_state.md R20). -/
  errlen : Nat
  /-- `PAD`, register 4 (10_state.md R21): its field P, the only bits that are not always 0. -/
  pad : BitVec 3
  /-- `OLEN`, register 5 (10_state.md R22). -/
  olen : Nat
  /-- `RLEN`, register 6 (10_state.md R23). -/
  rlen : Nat
  /-- The model's own: the host agent (log entry 3). -/
  host : HostAgent
  /-- The model's own: how many free values have been drawn (log entry 7). -/
  draws : Nat
  deriving DecidableEq, Repr

/-- A stop at an access. -/
inductive Fault where
  /-- A command read `IN[a]`, which the host has not written since reset (20_memory.md R42, R191 of
  70_reset_and_hazards.md, 93_implementation_defined.md U3). Raised by every read of `IN`. Safe: the spec asks for it. -/
  | inUnwritten (a : Nat)
  /-- `IN[a]` was read or written and `a` is not below MAXLEN, so the cell does not exist (20_memory.md R40). Raised by
  reads of `IN` and by the host's writes of `IN`. Safe. -/
  | inNoCell (a : Nat)
  deriving DecidableEq, Repr

/-- A situation the spec gives no meaning: "the model stops with a refusal mark" (60_exceptions.md R179). Every one is
safe: nothing can be proved of a run past it. -/
inductive Refusal where
  /-- An instruction without a meaning in this model; no arm of `exec` answers it. Safe. -/
  | notModelled (mnemonic : String)
  /-- A reserved value written to `CMD`, or found there by the core (30_encoding.md R77,
  93_implementation_defined.md U1). Raised by the host's write of `CMD` and by `step`. Safe. -/
  | reservedCommand (v : Nat)
  /-- A read of `OUT[a]` with `a` not below `OLEN` (20_memory.md R43, 93_implementation_defined.md U2). Raised by the
  host's read of `OUT`. Safe. -/
  | outputNotValid (a : Nat)
  /-- A write of `IN` or `LEN` while BUSY (70_reset_and_hazards.md R195, U4). Raised by the host's writes. Safe. -/
  | inputWriteWhileBusy
  /-- A write of `CMD` while BUSY (70_reset_and_hazards.md R196, U5). Raised by the host's write of `CMD`. Safe. -/
  | commandWhileBusy
  /-- A read of a result register or of `OUT` while BUSY (70_reset_and_hazards.md R197, U6). Raised by the host's
  reads. Safe. -/
  | resultReadWhileBusy
  /-- The length `n` is greater than MAXLEN: the encoded length of PADENC or ENCODE (70_reset_and_hazards.md R199, U7),
  or a value written to `LEN` (60_exceptions.md R179; log entry 9). Safe. -/
  | lengthTooLong (n : Nat)
  /-- An access to a register number that names no register (10_state.md R16, U8). Raised by the host's accesses.
  Safe. -/
  | noSuchRegister (n : Nat)
  deriving DecidableEq, Repr

/-- What a step answers. -/
abbrev Outcome := Host.Outcome State Fault Refusal

/-- The host before its first move: nothing to do, nothing seen. -/
def HostAgent.fresh : HostAgent := { todo := [], seen := [] }

/-- Seven zero bytes: the value the model names for `W7` at reset, where the spec says "unspecified"
(70_reset_and_hazards.md R190; DESIGN CHOICE, log entry 4). -/
def resetW7 : G7 := ⟨0, 0, 0, 0, 0, 0, 0⟩

/-- Eight zero bytes: the value the model names for `W8` at reset (DESIGN CHOICE, log entry 4). -/
def resetW8 : G8 := ⟨0, 0, 0, 0, 0, 0, 0, 0⟩

/-- The block right after reset (70_reset_and_hazards.md R190, 10_state.md R27): IDLE, every register 0, no cell of `IN`
or `OUT` with a value. `w7` and `w8` are log entry 4, `host` log entry 3, `draws` log entry 7. -/
def State.reset : State where
  inp := []
  out := []
  w7 := resetW7
  w8 := resetW8
  gi := 0
  phase := .idle
  cmd := 0
  len := 0
  code := .ok
  errlen := 0
  pad := 0
  olen := 0
  rlen := 0
  host := HostAgent.fresh
  draws := 0

end Sys2Proof.Machine
end

