-- ==== Sys2Proof/Machine/Codec.lean ====
section
/-! DEFINITION. The pure functions of the algorithm (40_transpose.md, 41_padding.md, 42_stream.md): Pack and Unpack, the
padding arithmetic, and the two message functions `encode` and `decode` of the document, on lists of bytes. -/

namespace Sys2Proof.Machine

/-- The high bit of source byte `i`, in its place in the H byte: `(s[i] & 0x80) >> (i+1)` (40_transpose.md R90). -/
def hBit (b : Byte) (i : Nat) : Byte := (b &&& 0x80#8) >>> (i + 1)

/-- The low 7 bits of a source byte (40_transpose.md R90). -/
def low7 (b : Byte) : Byte := b &&& 0x7F#8

/-- `Pack` (40_transpose.md R90), its loop over i = 0, ..., 6 written out. -/
def pack (s : G7) : G8 where
  y0 := hBit s.s0 0 ||| hBit s.s1 1 ||| hBit s.s2 2 ||| hBit s.s3 3 ||| hBit s.s4 4 ||| hBit s.s5 5 ||| hBit s.s6 6
  y1 := low7 s.s0
  y2 := low7 s.s1
  y3 := low7 s.s2
  y4 := low7 s.s3
  y5 := low7 s.s4
  y6 := low7 s.s5
  y7 := low7 s.s6

/-- One byte of `Unpack`: `y[i+1] | ((y[0] << (i+1)) & 0x80)`, the shift in 8 bits (40_transpose.md R92, R97). -/
def restore (h low : Byte) (i : Nat) : Byte := low ||| ((h <<< (i + 1)) &&& 0x80#8)

/-- `Unpack` (40_transpose.md R92), its loop over i = 0, ..., 6 written out. -/
def unpack (y : G8) : G7 where
  s0 := restore y.y0 y.y1 0
  s1 := restore y.y0 y.y2 1
  s2 := restore y.y0 y.y3 2
  s3 := restore y.y0 y.y4 3
  s4 := restore y.y0 y.y5 4
  s5 := restore y.y0 y.y6 5
  s6 := restore y.y0 y.y7 6

/-- `pad(L)` (41_padding.md R110). -/
def pad (L : Nat) : Nat := (7 - (L + 1) % 7) % 7

/-- `enclen(L)` (41_padding.md R111). -/
def enclen (L : Nat) : Nat := (L + 1 + pad L) / 7 * 8

/-- `declen(N, P)` (41_padding.md R113). -/
def declen (N P : Nat) : Nat := N / 8 * 7 - 1 - P

/-- The logical stream the encoder builds, format LS (30_encoding.md R66): the prefix byte, the input, the filler. -/
def logical (B : List Byte) : List Byte :=
  BitVec.ofNat 8 (pad B.length) :: (B ++ List.replicate (pad B.length) 0)

/-- The 7-byte group of a list that starts at index `a`. Its users never reach past the end (30_encoding.md R66). -/
def group7At (l : List Byte) (a : Nat) : G7 := G7.ofFn fun i => l.getD (a + i) 0

/-- The 8-byte group of a list that starts at index `a`. Its users never reach past the end (42_stream.md R137). -/
def group8At (l : List Byte) (a : Nat) : G8 := G8.ofFn fun k => l.getD (a + k) 0

/-- The function `encode` (42_stream.md R130): the Pack of each 7-byte group of the logical stream, in order. -/
def encodeBytes (B : List Byte) : List Byte :=
  (List.range ((logical B).length / 7)).flatMap fun g => (pack (group7At (logical B) (7 * g))).toList

/-- `Lambda(S)`, the recovered logical stream (42_stream.md R137): the Unpack of each 8-byte group, in order. -/
def lambda (S : List Byte) : List Byte :=
  (List.range (S.length / 8)).flatMap fun g => (unpack (group8At S (8 * g))).toList

/-- The padding count as the decoder reads it: the first byte of the Unpack of the first group (41_padding.md R112). -/
def prefixByte (S : List Byte) : Byte := (unpack (group8At S 0)).s0

/-- The function `decode` (42_stream.md R136), its checks in the order of 60_exceptions.md R165. -/
def decodeText (S : List Byte) : Except DecodeError (List Byte) :=
  if S.length = 0 then .ok []
  else if S.length % 8 ≠ 0 then .error (.invalidLength S.length)
  else if 7 ≤ (prefixByte S).toNat then .error (.invalidPadding S.length)
  else .ok (((lambda S).drop 1).take (declen S.length (prefixByte S).toNat))

end Sys2Proof.Machine
end

