-- ==== Sys2Proof/Machine/Flags.lean ====
section
/-! DEFINITION. The block's only condition code and the 8-bit registers it and the padding count are read through
(10_state.md R19, R21). -/

namespace Sys2Proof.Machine

/-- The number of a result code (10_state.md R19, 30_encoding.md R69). -/
def codeBits : ResultCode → BitVec 2
  | .ok => 0
  | .invalidLength => 1
  | .invalidPadding => 2

/-- `STATUS.BUSY`: 1 while `PHASE` = BUSY, else 0 (10_state.md R19). -/
def busyBit : Phase → BitVec 1
  | .idle => 0
  | .busy => 1

/-- The register `STATUS`: bits 7:3 zero, BUSY in bit 2, CODE in bits 1:0 (10_state.md R19). -/
def statusWith (p : Phase) (c : BitVec 2) : Byte := 0#5 ++ busyBit p ++ c

/-- What a read of `STATUS` gives while `PHASE` = IDLE (10_state.md R19). -/
def statusWord (s : State) : Byte := statusWith s.phase (codeBits s.code)

/-- The register `PAD`: bits 7:3 zero, P in bits 2:0 (10_state.md R21). -/
def padWord (s : State) : Byte := 0#5 ++ s.pad

/-- The code of an error (60_exceptions.md R161, R162). -/
def errorCode : DecodeError → ResultCode
  | .invalidLength _ => .invalidLength
  | .invalidPadding _ => .invalidPadding

/-- The length an error carries (30_encoding.md R69). -/
def errorLength : DecodeError → Nat
  | .invalidLength n => n
  | .invalidPadding n => n

end Sys2Proof.Machine
end

