-- ==== Sys2Proof/Machine/Ops.lean ====
section
/-! DEFINITION. The named operations: the byte spaces (20_memory.md), the updates of the state, the start of a command,
its normal end (10_state.md R24), its end by an error (60_exceptions.md R164), the reset event and the taking of the
next move. -/

namespace Sys2Proof.Machine

/-! ## A byte space -/

/-- The value of the cell `a`, if it has one. -/
def Memory.read : Memory → Nat → Option Byte
  | [], _ => none
  | c :: m, a => if c.1 = a then some c.2 else Memory.read m a

/-- Give the cell `a` the value `v`, keeping the indices strictly rising. -/
def Memory.write : Memory → Nat → Byte → Memory
  | [], a, v => [(a, v)]
  | c :: m, a, v =>
    if a < c.1 then (a, v) :: c :: m
    else if a = c.1 then (a, v) :: m
    else c :: Memory.write m a v

/-- The canonical form: the indices are strictly rising, and each names a cell that exists, below MAXLEN
(20_memory.md R40, R41). No listed value equals "no value", so nothing else is needed. -/
abbrev Memory.wf (m : Memory) : Prop :=
  m.Pairwise (fun c d => c.1 < d.1) ∧ ∀ c ∈ m, Config.fits (c.1 + 1) = true

/-- The cells `a`, `a + 1`, ... holding the given bytes in order. -/
def cellsFrom : Nat → List Byte → Memory
  | _, [] => []
  | a, b :: bs => (a, b) :: cellsFrom (a + 1) bs

/-! ## Updates of one field -/

def State.withIn (s : State) (m : Memory) : State := { s with inp := m }
def State.withOut (s : State) (m : Memory) : State := { s with out := m }
def State.withW7 (s : State) (w : G7) : State := { s with w7 := w }
def State.withW8 (s : State) (w : G8) : State := { s with w8 := w }
def State.withGi (s : State) (g : Nat) : State := { s with gi := g }
def State.withLen (s : State) (n : Nat) : State := { s with len := n }

/-! ## The accesses of the core (30_encoding.md R84) -/

/-- Why a cell of `IN` that has no value has none: it was never written (93_implementation_defined.md U3), or it does not
exist (20_memory.md R40). -/
def missingIn (a : Nat) : Fault := if Config.fits (a + 1) then .inUnwritten a else .inNoCell a

/-- `MemRead(IN, a, 1)` (20_memory.md R40, R48): no side effect. A cell without a value faults
(70_reset_and_hazards.md R191). -/
def State.readIn (s : State) (a : Nat) : Except Fault Byte :=
  match s.inp.read a with
  | some v => .ok v
  | none => .error (missingIn a)

/-- `MemWrite(OUT, a, 1, v)` (20_memory.md R41, R48). That every index a command writes is below MAXLEN follows from its
admission (70_reset_and_hazards.md R199) and is not checked again (log entry 12). -/
def State.writeOut (s : State) (a : Nat) (v : Byte) : State := s.withOut (s.out.write a v)

/-- `MemWrite` of a list of bytes at consecutive indices of `OUT`, in increasing order. -/
def State.writeOutList : State → Nat → List Byte → State
  | s, _, [] => s
  | s, a, b :: bs => State.writeOutList (s.writeOut a b) (a + 1) bs

/-! ## The life of a command -/

/-- The start of a command's execution: `GI <- 0` (10_state.md R14), and no cell of `OUT` has a defined value until the
command writes it (20_memory.md R43, 70_reset_and_hazards.md R198; log entry 6). -/
def State.beginCommand (s : State) : State := { s with gi := 0, out := [] }

/-- The normal end of a command (10_state.md R24, R25): every result register is written and the block is IDLE. -/
def State.finish (s : State) (p : BitVec 3) (olen rlen : Nat) : State :=
  { s with code := .ok, errlen := 0, pad := p, olen := olen, rlen := rlen, phase := .idle }

/-- The end of a command by an error (60_exceptions.md R164). "Nothing else changes." There is no return from an error
(60_exceptions.md R167). -/
def State.raise (s : State) (e : DecodeError) : State :=
  { s with code := errorCode e, errlen := errorLength e, pad := 0, olen := 0, rlen := 0, phase := .idle }

/-- The answer of a command whose accesses may fault. -/
def conclude : Except Fault State → Outcome
  | .ok s => .next s
  | .error f => .fault f

/-! ## The reset event and the moves -/

/-- The reset event (70_reset_and_hazards.md R190, R192): the block is as after reset whatever it was doing; the host
agent and the count of drawn free values are outside the block and stay (log entry 16). -/
def State.applyReset (s : State) : State := { State.reset with host := s.host, draws := s.draws }

/-- The move that comes next, and the state without it. With no move left the core has it: a started command ends
"without any help from the host" (70_reset_and_hazards.md R203). Log entry 3. -/
def State.takeMove (s : State) : Move × State :=
  match s.host.todo with
  | [] => (.core, s)
  | m :: rest => (m, { s with host := { s.host with todo := rest } })

/-- The host records what it read (70_reset_and_hazards.md R202). -/
def State.observe (s : State) (o : Observation) : State :=
  { s with host := { s.host with seen := o :: s.host.seen } }

/-- The start of a command by a write of `CMD`: "sets `PHASE <- BUSY`" (10_state.md R17). `OP` and `LEN` need no latch of
their own: neither can be written while BUSY (log entry 10). The result registers and `OUT` keep the last command's values
until the core moves: DESIGN CHOICE, R19 and 70_reset_and_hazards.md R197 leave them undefined while BUSY (log entry 20). -/
def State.start (s : State) (w : Byte) : State := { s with cmd := w, phase := .busy }

end Sys2Proof.Machine
end

