-- ==== Sys2Proof/Machine/Operands.lean ====
section
/-! DEFINITION. Operand assembly (30_encoding.md R71, R84): the groups a command reads from `IN` into its windows. Every
command takes its operands from `LEN` and `IN`; nothing is sign-extended, scaled or shifted. -/

namespace Sys2Proof.Machine

/-- A 7-byte group read element by element, in index order. -/
def collect7 (f : Nat → Except Fault Byte) : Except Fault G7 := do
  let b0 ← f 0
  let b1 ← f 1
  let b2 ← f 2
  let b3 ← f 3
  let b4 ← f 4
  let b5 ← f 5
  let b6 ← f 6
  return ⟨b0, b1, b2, b3, b4, b5, b6⟩

/-- An 8-byte group read element by element, in index order. -/
def collect8 (f : Nat → Except Fault Byte) : Except Fault G8 := do
  let b0 ← f 0
  let b1 ← f 1
  let b2 ← f 2
  let b3 ← f 3
  let b4 ← f 4
  let b5 ← f 5
  let b6 ← f 6
  let b7 ← f 7
  return ⟨b0, b1, b2, b3, b4, b5, b6, b7⟩

/-- The logical byte `j` of an ENCODE with `L` input bytes and padding count `P` (42_stream.md R132): the prefix byte,
then the input, then the filler. -/
def State.logicalByte (s : State) (L P j : Nat) : Except Fault Byte :=
  if j = 0 then .ok (BitVec.ofNat 8 P)
  else if j ≤ L then s.readIn (j - 1)
  else .ok 0

/-- The 7-byte operand of PACK, `IN[0 .. 7)` (40_transpose.md R91). -/
def State.operandG7 (s : State) : Except Fault G7 := collect7 s.readIn

/-- The 8-byte group `IN[8g .. 8g+8)` (40_transpose.md R93, 41_padding.md R115, 42_stream.md R140). -/
def State.operandG8 (s : State) (g : Nat) : Except Fault G8 := collect8 fun k => s.readIn (8 * g + k)

/-- The logical group `g` of an ENCODE (42_stream.md R132). -/
def State.logicalGroup (s : State) (L P g : Nat) : Except Fault G7 :=
  collect7 fun i => s.logicalByte L P (7 * g + i)

/-- `W8 <- IN[8g .. 8g+8)`, `W7 <- Unpack(W8)`: how UNPACK, PADDEC and DECODE take in a group. -/
def State.loadUnpacked (s : State) (g : Nat) : Except Fault State := do
  let y ← s.operandG8 g
  return (s.withW8 y).withW7 (unpack y)

/-- `W7 <- w`, `W8 <- Pack(W7)`: how PACK and ENCODE fill the windows. -/
def State.loadPacked (s : State) (w : G7) : State := (s.withW7 w).withW8 (pack w)

end Sys2Proof.Machine
end

