-- ==== Sys2Proof/Machine/Padding.lean ====
section
/-! DEFINITION. The padding-count commands PADENC and PADDEC, and the checks PADDEC shares with DECODE
(41_padding.md). -/

namespace Sys2Proof.Machine

/-- The admission of PADENC and ENCODE (70_reset_and_hazards.md R199): a command whose encoded length is greater than
MAXLEN "is not defined by this spec and a model refuses it". -/
def admitEncoded (s : State) (k : Outcome) : Outcome :=
  if Config.fits (enclen s.len) then k else .refused (.lengthTooLong (enclen s.len))

/-- Steps 1 to 3 of the decoder, for PADDEC and DECODE (41_padding.md R115, 42_stream.md R140), from the start of the
command: the empty text succeeds at once, then the length is checked, then the first group is unpacked and its prefix
byte checked (60_exceptions.md R165). `k` goes on with a text whose prefix byte is accepted. -/
def readHeader (s : State) (k : State → Outcome) : Outcome :=
  let s := s.beginCommand
  if s.len = 0 then .next (s.finish 0 0 0)
  else if s.len % 8 ≠ 0 then .next (s.raise (.invalidLength s.len))
  else
    match s.loadUnpacked 0 with
    | .error f => .fault f
    | .ok s => if 7 ≤ s.w7.s0.toNat then .next (s.raise (.invalidPadding s.len)) else k s

/-- PADENC (41_padding.md R114). `IN` is not read and no byte of `OUT` is written. -/
def execPadenc (s : State) : Outcome :=
  admitEncoded s (.next (s.beginCommand.finish (BitVec.ofNat 3 (pad s.len)) 0 (enclen s.len)))

/-- PADDEC (41_padding.md R115). No byte of `OUT` is written. -/
def execPaddec (s : State) : Outcome :=
  readHeader s fun s => .next (s.finish (s.w7.s0.setWidth 3) 0 (declen s.len s.w7.s0.toNat))

end Sys2Proof.Machine
end

