-- ==== Sys2Proof/Machine/Stream.lean ====
section
/-! DEFINITION. The message commands ENCODE and DECODE, group by group as the procedures of 42_stream.md R132 and R140
give them. That they compute the functions of R130 and R136 is stated in Certificates/Slice0/Obligations.lean. -/

namespace Sys2Proof.Machine

/-- One group of ENCODE (42_stream.md R132). -/
def encodeGroup (L P g : Nat) (s : State) : Except Fault State := do
  let s := s.withGi g
  let w ← s.logicalGroup L P g
  let s := s.loadPacked w
  return s.writeOutList (8 * g) s.w8.toList

/-- `n` groups of ENCODE, from group `g` on (42_stream.md R132). -/
def encodeGroups (L P : Nat) : (n g : Nat) → State → Except Fault State
  | 0, _, s => .ok s
  | n + 1, g, s => do
    let s ← encodeGroup L P g s
    encodeGroups L P n (g + 1) s

/-- ENCODE (42_stream.md R131, R132). The final values of the windows and `GI`: log entry 11. -/
def execEncode (s : State) : Outcome :=
  let L := s.len
  let P := pad L
  let G := (L + 1 + P) / 7
  admitEncoded s <| conclude do
    let s ← encodeGroups L P G 0 s.beginCommand
    return (s.withGi G).finish (BitVec.ofNat 3 P) (8 * G) (8 * G)

/-- Step 5 of DECODE (42_stream.md R140): the logical bytes 1 to n0 of group 0, with n0 = min(6, M). -/
def decodeFirst (M : Nat) (s : State) : State :=
  s.writeOutList 0 ((s.w7.toList.drop 1).take (min 6 M))

/-- A group of DECODE after the first, of which the first `live` logical bytes are data (42_stream.md R140, steps 6
and 7). -/
def decodeGroup (g live : Nat) (s : State) : Except Fault State := do
  let s ← (s.withGi g).loadUnpacked g
  return s.writeOutList (7 * g - 1) (s.w7.toList.take live)

/-- Step 6 of DECODE (42_stream.md R140): `n` groups from group `g` on, each with all seven bytes. -/
def decodeMiddle : (n g : Nat) → State → Except Fault State
  | 0, _, s => .ok s
  | n + 1, g, s => do
    let s ← decodeGroup g 7 s
    decodeMiddle n (g + 1) s

/-- Steps 4 to 7 of DECODE (42_stream.md R140), `P` the accepted padding count, `G` the number of groups. Step 7 is taken
only for a last group that is not group 0 (90_conflicts.md C3). -/
def decodeData (G P : Nat) (s : State) : Except Fault State := do
  let s := decodeFirst (7 * G - 1 - P) s
  let s ← decodeMiddle (G - 2) 1 s
  if 2 ≤ G then decodeGroup (G - 1) (7 - P) s else return s

/-- DECODE (42_stream.md R139, R140). The final values of the windows and `GI`: log entry 11. -/
def execDecode (s : State) : Outcome :=
  readHeader s fun s =>
    let G := s.len / 8
    let p := s.w7.s0
    let M := declen s.len p.toNat
    conclude do
      let s ← decodeData G p.toNat s
      return (s.withGi G).finish (p.setWidth 3) M M

end Sys2Proof.Machine
end

