-- ==== Sys2Proof/Machine/Transpose.lean ====
section
/-! DEFINITION. The bit-transposition commands PACK and UNPACK (40_transpose.md). -/

namespace Sys2Proof.Machine

/-- PACK (40_transpose.md R91). `LEN` is not read; there is no error. -/
def execPack (s : State) : Outcome :=
  conclude do
    let s := s.beginCommand
    let w ← s.operandG7
    let s := s.loadPacked w
    return (s.writeOutList 0 s.w8.toList).finish 0 8 8

/-- UNPACK (40_transpose.md R93). `LEN` is not read; the prefix byte is not looked at; there is no error. -/
def execUnpack (s : State) : Outcome :=
  conclude do
    let s ← s.beginCommand.loadUnpacked 0
    return (s.writeOutList 0 s.w7.toList).finish 0 7 7

end Sys2Proof.Machine
end

