-- ==== Sys2Proof/Machine/CoreSide.lean ====
section
/-! DEFINITION. A move of the core: it takes the command that was started from `CMD` and runs it (10_state.md R17). The
block fetches nothing from a memory (10_state.md R14, 20_memory.md R56). -/

namespace Sys2Proof.Machine

/-- The command word the core has to run: the value of `CMD` while BUSY, none while IDLE (10_state.md R15, R17). -/
def State.fetch (s : State) : Option Byte :=
  match s.phase with
  | .idle => none
  | .busy => some s.cmd

/-- One move of the core. While IDLE it does nothing: "An IDLE block stays IDLE until the next `CMD` write or reset"
(60_exceptions.md R176; log entry 14). While BUSY it executes the command's rule, as one atomic step (20_memory.md R49; log
entry 2). -/
def coreMove (s : State) : Outcome :=
  match s.fetch with
  | none => .next s
  | some w =>
    match decode w with
    | .ok i => exec i s
    | .error _ => .refused (.reservedCommand w.toNat)

end Sys2Proof.Machine
end

