-- ==== Sys2Proof/Machine/HostSide.lean ====
section
/-! DEFINITION. What the host can do to the block: the register file (10_state.md R16 to R23), the byte spaces, reset, and
the hazards it must respect (70_reset_and_hazards.md R195 to R197). -/

namespace Sys2Proof.Machine

/-- A write of `CMD` (10_state.md R17): legal while IDLE with a legal value, it starts the command. While BUSY it is a
hazard (70_reset_and_hazards.md R196); a reserved value has no meaning (30_encoding.md R77). `CMD` holds 8 bits: a wider
value is reserved too (log entry 9). -/
def hostWriteCmd (v : Nat) (s : State) : Outcome :=
  match s.phase with
  | .busy => .refused .commandWhileBusy
  | .idle =>
    if v < 256 then
      match decode (BitVec.ofNat 8 v) with
      | .ok _ => .next (s.start (BitVec.ofNat 8 v))
      | .error _ => .refused (.reservedCommand v)
    else .refused (.reservedCommand v)

/-- A write of `LEN` (10_state.md R18): any natural number up to MAXLEN, while IDLE (70_reset_and_hazards.md R195). -/
def hostWriteLen (n : Nat) (s : State) : Outcome :=
  match s.phase with
  | .busy => .refused .inputWriteWhileBusy
  | .idle => if Config.fits n then .next (s.withLen n) else .refused (.lengthTooLong n)

/-- A write of a register by its number (10_state.md R16): "A host write to a read-only register has no effect. Numbers 7
and above name no register" (log entry 15). -/
def hostWriteReg (n v : Nat) (s : State) : Outcome :=
  match n with
  | 0 => hostWriteCmd v s
  | 1 => hostWriteLen v s
  | 2 | 3 | 4 | 5 | 6 => .next s
  | _ => .refused (.noSuchRegister n)

/-- A read of `STATUS` (10_state.md R19). While BUSY the BUSY bit may be read and CODE is not defined: its two bits are a
free value (70_reset_and_hazards.md R197; log entry 7). -/
def hostReadStatus (s : State) : Outcome :=
  match s.phase with
  | .idle => .next (s.observe (.reg 2 (statusWord s).toNat))
  | .busy =>
    .next { s.observe (.reg 2 (statusWith .busy (Config.busyCode s.draws)).toNat) with draws := s.draws + 1 }

/-- A read of one of the result registers 3 to 6: only while IDLE (70_reset_and_hazards.md R197, R205;
log entry 19). -/
def hostReadResult (n v : Nat) (s : State) : Outcome :=
  match s.phase with
  | .idle => .next (s.observe (.reg n v))
  | .busy => .refused .resultReadWhileBusy

/-- A read of a register by its number (10_state.md R16 to R23). `CMD` and `LEN` answer in either phase (log entry 8). -/
def hostReadReg (n : Nat) (s : State) : Outcome :=
  match n with
  | 0 => .next (s.observe (.reg 0 s.cmd.toNat))
  | 1 => .next (s.observe (.reg 1 s.len))
  | 2 => hostReadStatus s
  | 3 => hostReadResult 3 s.errlen s
  | 4 => hostReadResult 4 (padWord s).toNat s
  | 5 => hostReadResult 5 s.olen s
  | 6 => hostReadResult 6 s.rlen s
  | _ => .refused (.noSuchRegister n)

/-- A write of one byte of `IN` (20_memory.md R40): below MAXLEN, while IDLE (70_reset_and_hazards.md R195). -/
def hostWriteIn (a : Nat) (v : Byte) (s : State) : Outcome :=
  match s.phase with
  | .busy => .refused .inputWriteWhileBusy
  | .idle => if Config.fits (a + 1) then .next (s.withIn (s.inp.write a v)) else .fault (.inNoCell a)

/-- A read of one byte of `OUT` (20_memory.md R41): below `OLEN` (R43, 93_implementation_defined.md U2), while IDLE
(70_reset_and_hazards.md R197). -/
def hostReadOut (a : Nat) (s : State) : Outcome :=
  match s.phase with
  | .busy => .refused .resultReadWhileBusy
  | .idle =>
    if a < s.olen then
      match s.out.read a with
      | some v => .next (s.observe (.outByte a v))
      | none => .refused (.outputNotValid a)
    else .refused (.outputNotValid a)

/-- One action of the host. Reset may come at any time (70_reset_and_hazards.md R192, R205). -/
def hostAct (a : HostAction) (s : State) : Outcome :=
  match a with
  | .writeReg n v => hostWriteReg n v s
  | .readReg n => hostReadReg n s
  | .writeIn i v => hostWriteIn i v s
  | .readOut i => hostReadOut i s
  | .reset => .next s.applyReset

/-- The calls of the document, as the host makes them (30_encoding.md R81). -/
inductive Call where
  | encode (B : List Byte)
  | decode (S : List Byte)
  | pack (s : G7)
  | unpack (y : G8)
  deriving DecidableEq, Repr

/-- The writes that fill `IN` from index `a` on (70_reset_and_hazards.md R194 step 2). -/
def fillMoves : Nat → List Byte → List Move
  | _, [] => []
  | a, b :: bs => .act (.writeIn a b) :: fillMoves (a + 1) bs

/-- The host's moves of one call, up to and with the end of the command (70_reset_and_hazards.md R194 steps 2 to 4,
30_encoding.md R81): fill `IN`, write `LEN` where the op reads it, write `CMD`, let the core run. -/
def callMoves : Call → List Move
  | .encode B => fillMoves 0 B ++ [.act (.writeReg 1 B.length), .act (.writeReg 0 (encode .encode).toNat), .core]
  | .decode S => fillMoves 0 S ++ [.act (.writeReg 1 S.length), .act (.writeReg 0 (encode .decode).toNat), .core]
  | .pack s => fillMoves 0 s.toList ++ [.act (.writeReg 0 (encode .pack).toNat), .core]
  | .unpack y => fillMoves 0 y.toList ++ [.act (.writeReg 0 (encode .unpack).toNat), .core]

end Sys2Proof.Machine
end

