-- ==== Sys2Proof/Machine/Step.lean ====
section
/-! DEFINITION. One step of the two agents (10_state.md R10, 20_memory.md R53): the next move, by the core or by the
host. -/

namespace Sys2Proof.Machine

/-- One move: the one the host agent's list names, or the core's where the list is empty (log entry 3). -/
def step (s : State) : Host.Outcome State Fault Refusal :=
  match s.takeMove with
  | (.core, t) => coreMove t
  | (.act a, t) => hostAct a t

/-- The state in which the very next step runs the command word `w`: it stands in `CMD`, the command is started, and the
core moves next. Log entry 13. -/
def State.withFetchWord (s : State) (_nbits w : Nat) : State :=
  { s.start (BitVec.ofNat 8 w) with host := { s.host with todo := .core :: s.host.todo } }

end Sys2Proof.Machine
end

