-- ==== Sys2Proof/WellFormed.lean ====
section
/-! DEFINITION. Well-formedness. A command has no operand (30_encoding.md R70, R72), so every term of `Instr` is well
formed; the checks the spec makes are on the command WORD: bits 7:3 are zero and OP is one of 0 to 5 (10_state.md R17,
30_encoding.md R77). -/

namespace Sys2Proof

/-- A command has no operand field to check (30_encoding.md R70): one arm per constructor, so that an instruction with
an operand could not slip past. -/
def Instr.wellFormed : Instr → Bool
  | .pack => true
  | .unpack => true
  | .padenc => true
  | .paddec => true
  | .encode => true
  | .decode => true

/-- Bits 7:3 of `CMD` "must be written 0" (10_state.md R17). -/
def wordReservedClear (w : Byte) : Bool := w.extractLsb' 3 5 == 0#5

/-- OP values 6 and 7 name no operation (30_encoding.md R74, R77). -/
def wordOpAssigned (w : Byte) : Bool := decide ((w.extractLsb' 0 3).toNat < 6)

/-- A value that may be written to `CMD` (10_state.md R17, 30_encoding.md R77). -/
def wordWellFormed (w : Byte) : Bool := wordReservedClear w && wordOpAssigned w

end Sys2Proof
end

