-- ==== Sys2Proof/Safety.lean ====
section
/-! DEFINITION. The terms claims use: the invariant of a block, what a command needs to complete, what the host may do,
and the results a command leaves (10_state.md R25). -/

namespace Sys2Proof.Machine

/-- The invariant of a block: the bounds of 10_state.md R11 and R14, the canonical form of the two byte spaces with `OUT`
holding a value exactly below `OLEN` (20_memory.md R43), and what rules R17 and R19 to R23 say the registers can hold. -/
structure State.Inv (s : State) : Prop where
  inWf : s.inp.wf
  outCells : s.out.map Prod.fst = List.range s.olen
  giFits : Config.fits (8 * s.gi) = true
  lenFits : Config.fits s.len = true
  errlenFits : Config.fits s.errlen = true
  olenFits : Config.fits s.olen = true
  rlenFits : Config.fits s.rlen = true
  cmdLegal : wordWellFormed s.cmd = true
  padRange : s.pad.toNat ≤ 6
  okErrlen : s.code = .ok → s.errlen = 0
  lengthErrlen : s.code = .invalidLength → s.errlen % 8 ≠ 0
  paddingErrlen : s.code = .invalidPadding → s.errlen ≠ 0 ∧ s.errlen % 8 = 0
  errorZeroes : s.code ≠ .ok → s.pad = 0 ∧ s.olen = 0 ∧ s.rlen = 0
  olenRlen : s.olen = 0 ∨ s.olen = s.rlen

/-- `IN[0 .. len(B))` holds the bytes `B`. -/
def State.holdsInput (s : State) (B : List Byte) : Prop := ∀ a < B.length, s.inp.read a = B[a]?

/-- Every cell of `IN` below `n` has a value. -/
def State.inputWritten (s : State) (n : Nat) : Prop := ∀ a < n, (s.inp.read a).isSome = true

/-- How many cells of `IN`, from index 0 on, a command may read at most (20_memory.md R42). -/
def inputBound (i : Instr) (s : State) : Nat :=
  match i with
  | .pack => 7
  | .unpack => 8
  | .padenc => 0
  | .paddec => if s.len % 8 = 0 ∧ s.len ≠ 0 then 8 else 0
  | .encode => s.len
  | .decode => if s.len % 8 = 0 then s.len else 0

/-- The first 8 bytes of `IN` hold a group whose prefix byte is rejected (41_padding.md R112). -/
def State.badPrefix (s : State) : Prop :=
  ∃ y : G8, s.holdsInput y.toList ∧ 7 ≤ (unpack y).s0.toNat

/-- The cells of `IN` the command reads have values (20_memory.md R42): all of `inputBound`, except that a DECODE
whose prefix byte is rejected reads only the first group. -/
def inputReady (i : Instr) (s : State) : Prop :=
  match i with
  | .pack => s.inputWritten 7
  | .unpack => s.inputWritten 8
  | .padenc => True
  | .paddec => s.len ≠ 0 → s.len % 8 = 0 → s.inputWritten 8
  | .encode => s.inputWritten s.len
  | .decode => s.len ≠ 0 → s.len % 8 = 0 → s.badPrefix ∨ s.inputWritten s.len

/-- The lengths of the command fit (70_reset_and_hazards.md R199). -/
def admitted (i : Instr) (s : State) : Bool :=
  match i with
  | .pack => true
  | .unpack => true
  | .padenc => Config.fits (enclen s.len)
  | .paddec => true
  | .encode => Config.fits (enclen s.len)
  | .decode => true

/-- What the host may do in a state (70_reset_and_hazards.md R205, 10_state.md R16). -/
def hostMay (a : HostAction) (s : State) : Prop :=
  match a with
  | .writeReg 0 v => s.phase = .idle ∧ v < 256 ∧ wordWellFormed (BitVec.ofNat 8 v) = true
  | .writeReg 1 n => s.phase = .idle ∧ Config.fits n = true
  | .writeReg n _ => n < 7
  | .readReg n => n < 3 ∨ (n < 7 ∧ s.phase = .idle)
  | .writeIn a _ => s.phase = .idle ∧ Config.fits (a + 1) = true
  | .readOut a => s.phase = .idle ∧ a < s.olen
  | .reset => True

/-- The tuple `res(op, LEN, IN)` a command leaves (10_state.md R25). -/
structure Results where
  code : ResultCode
  errlen : Nat
  pad : BitVec 3
  olen : Nat
  rlen : Nat
  out : Memory
  deriving DecidableEq, Repr

/-- The results a state shows. -/
def State.results (s : State) : Results :=
  { code := s.code, errlen := s.errlen, pad := s.pad, olen := s.olen, rlen := s.rlen, out := s.out }

/-- A successful end with the given PAD, OLEN, RLEN and output (10_state.md R25). -/
def Results.success (p : Nat) (olen rlen : Nat) (B : List Byte) : Results :=
  { code := .ok, errlen := 0, pad := BitVec.ofNat 3 p, olen := olen, rlen := rlen, out := cellsFrom 0 B }

/-- The end by an error (10_state.md R25, its last two rows; 60_exceptions.md R164). -/
def Results.failure (e : DecodeError) : Results :=
  { code := errorCode e, errlen := errorLength e, pad := 0, olen := 0, rlen := 0, out := [] }

/-- The table of 10_state.md R25, on `LEN` = `n` and the bytes `B` that `IN` holds from index 0 on. -/
def tableResults (i : Instr) (n : Nat) (B : List Byte) : Results :=
  match i with
  | .pack => .success 0 8 8 (pack (group7At B 0)).toList
  | .unpack => .success 0 7 7 (unpack (group8At B 0)).toList
  | .padenc => .success (pad n) 0 (enclen n) []
  | .paddec =>
    if n = 0 then .success 0 0 0 []
    else if n % 8 ≠ 0 then .failure (.invalidLength n)
    else if 7 ≤ (prefixByte B).toNat then .failure (.invalidPadding n)
    else .success (prefixByte B).toNat 0 (declen n (prefixByte B).toNat) []
  | .encode => .success (pad n) (enclen n) (enclen n) (encodeBytes (B.take n))
  | .decode =>
    if n = 0 then .success 0 0 0 []
    else if n % 8 ≠ 0 then .failure (.invalidLength n)
    else if 7 ≤ (prefixByte B).toNat then .failure (.invalidPadding n)
    else
      let M := declen n (prefixByte B).toNat
      .success (prefixByte B).toNat M M (((lambda (B.take n)).drop 1).take M)

end Sys2Proof.Machine
end

