-- ==== Sys2Proof/Certificates/Slice0/Obligations.lean ====
section
/-! DEFINITION. The statements for the provers, each about every state, every list of bytes or every group, in the order of
OBLIGATIONS.json. `{ s with ... }` in a conclusion says the whole next state: every field not named is unchanged. -/

open Sys2Proof Sys2Proof.Machine

/-! ## The command word (30_encoding.md) -/

/-- R74: the six words of the op map and their operations; every other word is rejected. -/
def Obligations.OpMapNamesExactlySixWords : Prop :=
  decode 0x00#8 = .ok .pack ∧ decode 0x01#8 = .ok .unpack ∧ decode 0x02#8 = .ok .padenc ∧
  decode 0x03#8 = .ok .paddec ∧ decode 0x04#8 = .ok .encode ∧ decode 0x05#8 = .ok .decode ∧
  ∀ w : Byte, 6 ≤ w.toNat → ∃ r, decode w = .error r

/-- R70, R74: decoding an encoded command gives it back, and a word that decodes is the encoding of what it decodes to. -/
def Obligations.DecodeAndEncodeAgree : Prop :=
  (∀ i : Instr, i.wellFormed = true → decode (encode i) = .ok i) ∧
  ∀ (w : Byte) (i : Instr), decode w = .ok i → encode i = w

/-- R77: a write of `CMD` with OP = 6 or 7, or with any of bits 7:3 set, has no next state. -/
def Obligations.ReservedCommandWritesAreRefused : Prop :=
  ∀ (s : State) (w : Byte), s.phase = .idle →
    (6 ≤ (w.extractLsb' 0 3).toNat ∨ w.extractLsb' 3 5 ≠ 0#5) →
    hostAct (.writeReg 0 w.toNat) s = .refused (.reservedCommand w.toNat)

/-! ## The step -/

/-- A step runs the decoded command: while BUSY, when the core moves next and `CMD` decodes to `i`, the step is `exec i` on
the state without that move. -/
def Obligations.StepRunsTheStartedCommand : Prop :=
  ∀ (s : State) (i : Instr), (s.host.todo = [] ∨ s.host.todo.head? = some .core) → s.phase = .busy →
    decode s.cmd = .ok i →
    step s = exec i { s with host := { s.host with todo := s.host.todo.tail } }

/-- A step performs the host's action when the host moves next. -/
def Obligations.StepPerformsTheHostsAction : Prop :=
  ∀ (s : State) (a : HostAction) (rest : List Move), s.host.todo = .act a :: rest →
    step s = hostAct a { s with host := { s.host with todo := rest } }

/-- R176: an IDLE block stays IDLE until the next write of `CMD` (or reset, which leaves it IDLE); a core move changes
nothing in it. -/
def Obligations.IdleBlockWaitsForACommandWrite : Prop :=
  (∀ s : State, s.phase = .idle → (s.host.todo = [] ∨ s.host.todo.head? = some .core) →
    step s = .next { s with host := { s.host with todo := s.host.todo.tail } }) ∧
  ∀ s t : State, s.phase = .idle → step s = .next t → t.phase = .busy →
    ∃ v rest, s.host.todo = .act (.writeReg 0 v) :: rest ∧ wordWellFormed t.cmd = true ∧ t.cmd.toNat = v

/-- The interface's `withFetchWord`: the very next step runs the command of that word. -/
def Obligations.FetchWordRunsNext : Prop :=
  ∀ (s : State) (w : Byte) (i : Instr), decode w = .ok i →
    step (s.withFetchWord 8 w.toNat) = exec i { s with cmd := w, phase := .busy }

/-! ## Reset (70_reset_and_hazards.md) -/

/-- R27: the reset values; no cell of `IN` or `OUT` has a value. -/
def Obligations.ResetLeavesTheStatedValues : Prop :=
  State.reset.phase = .idle ∧ State.reset.gi = 0 ∧ State.reset.cmd = 0 ∧ State.reset.len = 0 ∧
  State.reset.code = .ok ∧ statusWord State.reset = 0 ∧ State.reset.errlen = 0 ∧ State.reset.pad = 0 ∧
  State.reset.olen = 0 ∧ State.reset.rlen = 0 ∧
  (∀ a, State.reset.inp.read a = none) ∧ ∀ a, State.reset.out.read a = none

/-- R190, R192: the reset event, in any state, BUSY ones too: the running command is abandoned, the state is that of
R190, and no byte of `OUT` can be read: R191 asks for a refusal or a fault, and the model refuses (log entry 6). That the
host's own record stays is the model's choice (log entry 16). -/
def Obligations.ResetEventAbandonsTheCommand : Prop :=
  ∀ s : State, ∃ t, hostAct .reset s = .next t ∧
    t.phase = .idle ∧ t.gi = 0 ∧ t.cmd = 0 ∧ t.len = 0 ∧ t.code = .ok ∧ t.errlen = 0 ∧ t.pad = 0 ∧ t.olen = 0 ∧
    t.rlen = 0 ∧ (∀ a, t.inp.read a = none) ∧ (∀ a, t.out.read a = none) ∧ t.host = s.host ∧
    ∀ a, hostAct (.readOut a) t = .refused (.outputNotValid a)

/-! ## Pack and Unpack (40_transpose.md) -/

/-- R62: the bit layout of a packed group, bit by bit, and the H byte as a sum. -/
def Obligations.PackPlacesEveryBit : Prop :=
  ∀ s : G7, (pack s).y0.getLsbD 7 = false ∧
    (∀ i : Fin 7, (pack s).y0.getLsbD (6 - i.val) = (s.get i).getLsbD 7 ∧
      ((pack s).get i.succ).getLsbD 7 = false ∧
      ∀ k < 7, ((pack s).get i.succ).getLsbD k = (s.get i).getLsbD k) ∧
    (pack s).y0.toNat = ∑ i : Fin 7, ((s.get i).getLsbD 7).toNat * 2 ^ (6 - i.val)

/-- R92: the bits of an unpacked group, for any group, canonical or not; bit 7 of the H byte is used by no output. -/
def Obligations.UnpackRestoresEveryBit : Prop :=
  ∀ (y : G8), (∀ i : Fin 7,
    ((unpack y).get i).getLsbD 7 = (y.y0.getLsbD (6 - i.val) || (y.get i.succ).getLsbD 7) ∧
    ∀ k < 7, ((unpack y).get i).getLsbD k = (y.get i.succ).getLsbD k) ∧
    unpack { y with y0 := y.y0 &&& 0x7F#8 } = unpack y

/-- R94: Unpack undoes Pack. -/
def Obligations.UnpackInvertsPack : Prop :=
  ∀ s : G7, unpack (pack s) = s

/-- R95, R63: Pack is injective, its image is exactly the canonical groups, and Pack after Unpack gives the canonical
form. -/
def Obligations.PackAfterUnpackCanonicalises : Prop :=
  Function.Injective pack ∧
  (∀ y : G8, (∃ s, pack s = y) ↔ ∀ k : Fin 8, (y.get k).getLsbD 7 = false) ∧
  (∀ y : G8, (∀ k : Fin 8, (y.get k).getLsbD 7 = false) → pack (unpack y) = y) ∧
  ∀ y : G8, (∀ i : Fin 7, (pack (unpack y)).get i.succ = y.get i.succ &&& 0x7F#8) ∧
    (pack (unpack y)).y0 = ((y.y0 &&& 0x7F#8) ||| ((y.y1 &&& 0x80#8) >>> 1) ||| ((y.y2 &&& 0x80#8) >>> 2) |||
      ((y.y3 &&& 0x80#8) >>> 3) ||| ((y.y4 &&& 0x80#8) >>> 4) ||| ((y.y5 &&& 0x80#8) >>> 5) |||
      ((y.y6 &&& 0x80#8) >>> 6) ||| ((y.y7 &&& 0x80#8) >>> 7))

/-- R96: every byte of a packed group is at most 0x7F. -/
def Obligations.PackedGroupsAreSevenBitClean : Prop :=
  ∀ (s : G7) (k : Fin 8), ((pack s).get k).toNat ≤ 0x7F

/-- R28: in the flat view element k occupies bits 8k+7 down to 8k. -/
def Obligations.FlatWindowsHoldElementsInOrder : Prop :=
  (∀ (w : G7) (k : Fin 7), w.flat.extractLsb' (8 * k.val) 8 = w.get k) ∧
  ∀ (w : G8) (k : Fin 8), w.flat.extractLsb' (8 * k.val) 8 = w.get k

/-! ## The padding arithmetic (41_padding.md) -/

/-- R110, R111: the formulas of `pad` and `enclen`, the range of `pad` and what it is for, and the closed forms of
both. -/
def Obligations.PaddingRoundsUpToSevens : Prop :=
  ∀ L : Nat, pad L = (7 - (L + 1) % 7) % 7 ∧ pad L ≤ 6 ∧ (L + 1 + pad L) % 7 = 0 ∧ pad L = 6 - L % 7 ∧
    (∀ P ≤ 6, (L + 1 + P) % 7 = 0 → P = pad L) ∧
    enclen L = (L + 1 + pad L) / 7 * 8 ∧ enclen L = 8 * (L / 7 + 1)

/-- R116: the encoded length and the padding count determine the input length, and every pair the decoder accepts is the
shape of one input length. -/
def Obligations.LengthAndPaddingDetermineEachOther : Prop :=
  (∀ L : Nat, 0 < enclen L ∧ enclen L % 8 = 0 ∧ declen (enclen L) (pad L) = L) ∧
  ∀ N P : Nat, 0 < N → N % 8 = 0 → P ≤ 6 → pad (declen N P) = P ∧ enclen (declen N P) = N

/-! ## The commands -/

/-- R91: PACK, its whole next state, whatever `LEN` holds. -/
def Obligations.PackCommandPacksTheFirstSevenBytes : Prop :=
  ∀ (s : State) (w : G7), s.holdsInput w.toList →
    exec .pack s = .next { s with
      w7 := w, w8 := pack w, gi := 0, out := cellsFrom 0 (pack w).toList,
      code := .ok, errlen := 0, pad := 0, olen := 8, rlen := 8, phase := .idle }

/-- R93: UNPACK, its whole next state, whatever `LEN` and the prefix byte hold. -/
def Obligations.UnpackCommandUnpacksTheFirstEightBytes : Prop :=
  ∀ (s : State) (y : G8), s.holdsInput y.toList →
    exec .unpack s = .next { s with
      w8 := y, w7 := unpack y, gi := 0, out := cellsFrom 0 (unpack y).toList,
      code := .ok, errlen := 0, pad := 0, olen := 7, rlen := 7, phase := .idle }

/-- R114: PADENC, its whole next state. -/
def Obligations.PadencCommandComputesTheSizes : Prop :=
  ∀ s : State, Config.fits (enclen s.len) = true →
    exec .padenc s = .next { s with
      gi := 0, out := [], code := .ok, errlen := 0, pad := BitVec.ofNat 3 (pad s.len), olen := 0,
      rlen := enclen s.len, phase := .idle }

/-- R115: PADDEC, its whole next state on each of its four paths; `IN` is looked at only where the length passes. -/
def Obligations.PaddecCommandChecksAndSizes : Prop :=
  ∀ (s : State) (y : G8), (s.len ≠ 0 → s.len % 8 = 0 → s.holdsInput y.toList) →
    exec .paddec s = .next
      (if s.len = 0 then
        { s with gi := 0, out := [], code := .ok, errlen := 0, pad := 0, olen := 0, rlen := 0, phase := .idle }
      else if s.len % 8 ≠ 0 then
        { s with gi := 0, out := [], code := .invalidLength, errlen := s.len, pad := 0, olen := 0, rlen := 0,
                 phase := .idle }
      else if 7 ≤ (unpack y).s0.toNat then
        { s with gi := 0, out := [], w8 := y, w7 := unpack y, code := .invalidPadding, errlen := s.len, pad := 0,
                 olen := 0, rlen := 0, phase := .idle }
      else
        { s with gi := 0, out := [], w8 := y, w7 := unpack y, code := .ok, errlen := 0,
                 pad := BitVec.ofNat 3 (unpack y).s0.toNat, olen := 0,
                 rlen := s.len / 8 * 7 - 1 - (unpack y).s0.toNat, phase := .idle })

/-- R131: ENCODE, its whole next state but for what it leaves in the windows: `OUT` holds the function `encode` of R130. -/
def Obligations.EncodeCommandComputesEncode : Prop :=
  ∀ (s : State) (B : List Byte), B.length = s.len → s.holdsInput B → Config.fits (enclen s.len) = true →
    ∃ v7 v8, exec .encode s = .next { s with
      w7 := v7, w8 := v8, gi := enclen s.len / 8, out := cellsFrom 0 (encodeBytes B),
      code := .ok, errlen := 0, pad := BitVec.ofNat 3 (pad s.len), olen := enclen s.len, rlen := enclen s.len,
      phase := .idle }

/-- R139: DECODE, its whole next state but for what it leaves in the windows and `GI`: the result is the function
`decode` of R136. -/
def Obligations.DecodeCommandComputesDecode : Prop :=
  ∀ (s : State) (S : List Byte), S.length = s.len → (s.len % 8 = 0 → s.holdsInput S) →
    ∃ v7 v8 g, exec .decode s = .next
      (match decodeText S with
      | .ok D =>
        { s with w7 := v7, w8 := v8, gi := g, out := cellsFrom 0 D, code := .ok, errlen := 0,
                 pad := (if s.len = 0 then 0 else BitVec.ofNat 3 (prefixByte S).toNat),
                 olen := D.length, rlen := D.length, phase := .idle }
      | .error e =>
        { s with w7 := v7, w8 := v8, gi := g, out := [], code := errorCode e, errlen := s.len, pad := 0, olen := 0,
                 rlen := 0, phase := .idle })

/-- R141, R138: what a successful DECODE leaves in `OUT`, byte by byte: the recovered logical stream without its first
byte and without its last P bytes, and nothing else. -/
def Obligations.DecodeWritesTheTrimmedStream : Prop :=
  ∀ (s t : State) (S : List Byte), S.length = s.len → s.len ≠ 0 → s.holdsInput S → exec .decode s = .next t →
    t.code = .ok →
    t.olen = 7 * (s.len / 8) - 1 - (prefixByte S).toNat ∧
    ∀ m, t.out.read m = if m < t.olen then (lambda S)[m + 1]? else none

/-- R161, R164: a length that is not a multiple of 8 ends both decoder commands with `InvalidLength`, without a read of
`IN`, and nothing else changes (`GI` and `OUT` are those of a command's start). -/
def Obligations.DecodersRejectABadLength : Prop :=
  ∀ (i : Instr) (s : State), i = .paddec ∨ i = .decode → s.len % 8 ≠ 0 →
    exec i s = .next { s with
      gi := 0, out := [], code := .invalidLength, errlen := s.len, pad := 0, olen := 0, rlen := 0, phase := .idle }

/-- R162, R164: a prefix byte of 7 or more ends both decoder commands with `InvalidPadding`, carrying the length, with only
the first group read. -/
def Obligations.DecodersRejectABadPaddingCount : Prop :=
  ∀ (i : Instr) (s : State) (y : G8), i = .paddec ∨ i = .decode → s.len ≠ 0 → s.len % 8 = 0 →
    s.holdsInput y.toList → 7 ≤ (unpack y).s0.toNat →
    exec i s = .next { s with
      gi := 0, out := [], w8 := y, w7 := unpack y, code := .invalidPadding, errlen := s.len, pad := 0, olen := 0,
      rlen := 0, phase := .idle }

/-- R165: which error a decoder command reports, exactly; the length check comes first. -/
def Obligations.ErrorsFollowTheOrderOfTheChecks : Prop :=
  ∀ (i : Instr) (s t : State), i = .paddec ∨ i = .decode → exec i s = .next t →
    (t.code = .invalidLength ↔ s.len % 8 ≠ 0) ∧
    (t.code = .invalidPadding ↔ s.len ≠ 0 ∧ s.len % 8 = 0 ∧ s.badPrefix)

/-- R163: PACK, UNPACK, PADENC and ENCODE never report an error. -/
def Obligations.OtherCommandsNeverFail : Prop :=
  ∀ (i : Instr) (s t : State), i = .pack ∨ i = .unpack ∨ i = .padenc ∨ i = .encode → exec i s = .next t →
    t.code = .ok ∧ t.errlen = 0

/-- The frame of every command: `CMD`, `LEN`, every byte of `IN` and the host are unchanged; `OUT` holds a value exactly
below `OLEN`; the block is IDLE. -/
def Obligations.CommandsChangeNothingElse : Prop :=
  ∀ (i : Instr) (s t : State), exec i s = .next t →
    t.cmd = s.cmd ∧ t.len = s.len ∧ (∀ a, t.inp.read a = s.inp.read a) ∧ t.host = s.host ∧ t.draws = s.draws ∧
    t.phase = .idle ∧ (∀ a, t.out.read a = none ↔ t.olen ≤ a) ∧
    (i = .padenc → t.w7 = s.w7 ∧ t.w8 = s.w8) ∧
    (i ≠ .encode → i ≠ .decode → t.gi = 0)

/-- R24: the results are a function of the command's own inputs alone: two states that agree on them, and on nothing
else, get the same results. PACK and UNPACK do not read `LEN`. -/
def Obligations.ResultsDependOnlyOnTheInputs : Prop :=
  ∀ (i : Instr) (s s' t : State), (i = .pack ∨ i = .unpack ∨ s'.len = s.len) →
    (∀ a < inputBound i s, s'.inp.read a = s.inp.read a) → exec i s = .next t →
    ∃ t', exec i s' = .next t' ∧ t'.results = t.results

/-- R203, R204: a command ends exactly when it is admitted and the host has filled the cells it reads; nothing else is
needed. That it does not end where a cell it reads has no value is the model's stop there, a fault (log entry 5). -/
def Obligations.CommandsEndExactlyWhenReady : Prop :=
  ∀ (i : Instr) (s : State), (∃ t, exec i s = .next t) ↔ admitted i s = true ∧ inputReady i s

/-- R199: what is refused for its length, exactly: a PADENC or ENCODE whose encoded length is above MAXLEN. That no other
command is refused rests on the model's choice of a fault, where R191 and U3 allow a refusal, for an `IN` cell without a
value (log entry 5). -/
def Obligations.OverlongEncodingsAreRefused : Prop :=
  ∀ (i : Instr) (s : State) (r : Refusal), exec i s = .refused r ↔
    (i = .padenc ∨ i = .encode) ∧ Config.fits (enclen s.len) = false ∧ r = .lengthTooLong (enclen s.len)

/-- The model's choice (log entry 5): a core read of a cell of `IN` without a value faults, under the names `inUnwritten` and
`inNoCell`, and the fault names the first such cell. R191 and U3 ask for a refusal or a fault and give no name, and R53
leaves the order of a command's own reads free. -/
def Obligations.ReadsOfUnwrittenInputFault : Prop :=
  (∀ (i : Instr) (s : State), admitted i s = true → ¬ inputReady i s → ∃ f, exec i s = .fault f) ∧
  ∀ (i : Instr) (s : State) (f : Fault), exec i s = .fault f →
    ∃ a < inputBound i s, s.inp.read a = none ∧ s.inputWritten a ∧
      (f = .inUnwritten a ∧ Config.fits (a + 1) = true ∨ f = .inNoCell a ∧ Config.fits (a + 1) = false)

/-- R25: every admitted command with its input written leaves the results of the table. -/
def Obligations.EveryCommandLeavesItsRowOfTheTable : Prop :=
  ∀ (i : Instr) (s : State) (B : List Byte), s.holdsInput B → inputBound i s ≤ B.length → admitted i s = true →
    ∃ t, exec i s = .next t ∧ t.results = tableResults i s.len B

/-- R23, R114, R115: the sizing commands predict the work: PADENC reports the `PAD` and the length ENCODE of the same input
reports, PADDEC the result registers DECODE of the same input reports. -/
def Obligations.SizingCommandsPredictTheWork : Prop :=
  (∀ s t u : State, exec .padenc s = .next t → exec .encode s = .next u →
    t.pad = u.pad ∧ t.rlen = u.olen ∧ t.rlen = u.rlen) ∧
  ∀ s t u : State, exec .paddec s = .next t → exec .decode s = .next u →
    t.code = u.code ∧ t.errlen = u.errlen ∧ t.pad = u.pad ∧ t.rlen = u.rlen

/-! ## The invariant -/

/-- Every step, by the core or by the host, keeps the invariant. What the invariant says of the result fields and `OUT` in a
BUSY state is about the last command's values, which the model keeps there by choice (log entry 20). -/
def Obligations.StepKeepsTheInvariant : Prop :=
  ∀ s t : State, s.Inv → step s = .next t → t.Inv

/-- The state after reset has the invariant. -/
def Obligations.ResetHasTheInvariant : Prop :=
  State.reset.Inv

/-! ## The message functions (42_stream.md) -/

/-- R144: decoding the encoding of any byte sequence gives it back. -/
def Obligations.DecodeInvertsEncode : Prop :=
  ∀ B : List Byte, decodeText (encodeBytes B) = .ok B

/-- R144 in commands: ENCODE, then a state whose `IN` and `LEN` hold its `OUT` and `OLEN`, then DECODE, gives the bytes
back, with the same `PAD`. -/
def Obligations.DecodeCommandUndoesEncodeCommand : Prop :=
  ∀ s t u : State, exec .encode s = .next t → u.len = t.olen → (∀ a < t.olen, u.inp.read a = t.out.read a) →
    ∃ v, exec .decode u = .next v ∧ v.code = .ok ∧ v.olen = s.len ∧ v.pad = t.pad ∧
      ∀ a < s.len, v.out.read a = s.inp.read a

/-- R133: the length of an encoded text and the range of its bytes. -/
def Obligations.EncodedTextIsCleanAndSized : Prop :=
  ∀ B : List Byte, (encodeBytes B).length % 8 = 0 ∧
    (encodeBytes B).length = (B.length + 1 + pad B.length) / 7 * 8 ∧ encodeBytes B ≠ [] ∧
    ∀ b ∈ encodeBytes B, b.toNat ≤ 127

/-- R68: where the padding count stands in an encoded text, and how the decoder reads it. -/
def Obligations.PaddingCountStandsInTheSecondByte : Prop :=
  (∀ B : List Byte, (encodeBytes B)[1]? = some (BitVec.ofNat 8 (pad B.length)) ∧
    ∃ h : Byte, (encodeBytes B)[0]? = some h ∧ h.toNat ≤ 0x3F) ∧
  ∀ y : G8, (unpack y).s0 = (y.y1 ||| ((y.y0 <<< 1) &&& 0x80#8)) ∧
    ((unpack y).s0.toNat ≤ 6 ↔ y.y1.toNat ≤ 6 ∧ y.y0.getLsbD 6 = false)

/-- R145: encoding what DECODE gives from a text keeps the length and the padding count, and gives the text back exactly
when the text is 7-bit clean and its filler is zero. -/
def Obligations.ReencodingRestoresExactlyCanonicalTexts : Prop :=
  ∀ S D : List Byte, S ≠ [] → decodeText S = .ok D →
    (encodeBytes D).length = S.length ∧ prefixByte (encodeBytes D) = prefixByte S ∧
    (encodeBytes D = S ↔
      (∀ b ∈ S, b.toNat ≤ 0x7F) ∧ ∀ b ∈ (lambda S).drop (1 + D.length), b = 0#8)

/-- R146: only group 0 is inspected for the padding count, and only where the length passes. -/
def Obligations.OnlyTheFirstGroupIsInspected : Prop :=
  (∀ S : List Byte, S.length % 8 ≠ 0 → decodeText S = .error (.invalidLength S.length)) ∧
  (∀ S : List Byte, S ≠ [] → S.length % 8 = 0 → 7 ≤ (prefixByte S).toNat →
    decodeText S = .error (.invalidPadding S.length)) ∧
  ∀ (y : G8) (T : List Byte), T.length % 8 = 0 → (unpack y).s0.toNat ≤ 6 → ∃ D, decodeText (y.toList ++ T) = .ok D

/-- R134, R143: the encoding of the empty input; the two kinds of text that decode to the empty output, the empty text and
every 8-byte text with P = 6, told apart by `PAD` alone; and that the encoding of the empty input is one of them. -/
def Obligations.EmptyInputAndEmptyText : Prop :=
  (∀ s : State, s.len = 0 → ∃ t, exec .encode s = .next t ∧ t.code = .ok ∧ t.pad = 6 ∧ t.olen = 8 ∧ t.rlen = 8 ∧
    t.out = cellsFrom 0 [0, 6, 0, 0, 0, 0, 0, 0]) ∧
  (∀ s : State, s.len = 0 → ∃ t, exec .decode s = .next t ∧ t.code = .ok ∧ t.errlen = 0 ∧ t.pad = 0 ∧ t.olen = 0 ∧
    t.rlen = 0 ∧ t.out = []) ∧
  (∀ (s : State) (y : G8), s.len = 8 → s.holdsInput y.toList → (unpack y).s0 = 6 →
    ∃ t, exec .decode s = .next t ∧ t.code = .ok ∧ t.errlen = 0 ∧ t.pad = 6 ∧ t.olen = 0 ∧ t.rlen = 0 ∧ t.out = []) ∧
  (unpack ⟨0, 6, 0, 0, 0, 0, 0, 0⟩).s0 = 6

/-- R142: a one-group text gives the first 6 − P of the six data bytes, the others dropped without a check. -/
def Obligations.OneGroupTextsAreTruncated : Prop :=
  ∀ (s : State) (y : G8), s.len = 8 → s.holdsInput y.toList → (unpack y).s0.toNat ≤ 6 →
    ∃ t, exec .decode s = .next t ∧ t.code = .ok ∧ t.pad.toNat = (unpack y).s0.toNat ∧
      t.olen = 6 - (unpack y).s0.toNat ∧
      t.out = cellsFrom 0 (((unpack y).toList.drop 1).take (6 - (unpack y).s0.toNat))

/-- R135: an encoded group depends only on its own stretch of the input, and each low-bits byte on one logical byte. -/
def Obligations.EncodedGroupsDependOnTheirStretch : Prop :=
  (∀ (B C : List Byte) (g k : Nat), B.length = C.length → k < 8 →
    (∀ j, 7 * g ≤ j + 1 → j + 1 < 7 * g + 7 → B[j]? = C[j]?) →
    (encodeBytes B)[8 * g + k]? = (encodeBytes C)[8 * g + k]?) ∧
  ∀ (B : List Byte) (g i : Nat), i < 7 →
    (encodeBytes B)[8 * g + 1 + i]? = ((logical B)[7 * g + i]?).map (fun b => b &&& 0x7F#8)

/-! ## The host's side (10_state.md R16 to R23, 20_memory.md, 70_reset_and_hazards.md) -/

/-- R17: a write of `CMD` with a legal value while IDLE starts the command and changes nothing else. That the result fields
and `OUT`, which R19 and R197 leave undefined while BUSY, keep their values is the model's choice (log entry 20). -/
def Obligations.LegalCommandWriteStarts : Prop :=
  ∀ (s : State) (i : Instr), s.phase = .idle →
    hostAct (.writeReg 0 (encode i).toNat) s = .next { s with cmd := encode i, phase := .busy }

/-- R18: a write of `LEN` while IDLE stores any natural number up to MAXLEN; a greater one is refused. -/
def Obligations.LengthWriteStoresWhatFits : Prop :=
  ∀ (s : State) (n : Nat), s.phase = .idle →
    hostAct (.writeReg 1 n) s = if Config.fits n then .next { s with len := n } else .refused (.lengthTooLong n)

/-- R16: a write of a read-only register has no effect; a register number of 7 or above names no register. -/
def Obligations.ReadOnlyRegistersIgnoreWrites : Prop :=
  ∀ (s : State) (n v : Nat),
    (2 ≤ n → n ≤ 6 → hostAct (.writeReg n v) s = .next s) ∧
    (7 ≤ n → hostAct (.writeReg n v) s = .refused (.noSuchRegister n) ∧
      hostAct (.readReg n) s = .refused (.noSuchRegister n))

/-- R16 to R23: what a read of each register answers while IDLE, the fields of `STATUS` and `PAD` in their places; a read
changes nothing else. -/
def Obligations.RegisterReadsAnswerWhileIdle : Prop :=
  ∀ s : State, s.phase = .idle →
    ∃ st pd : Byte,
      st.extractLsb' 2 6 = 0#6 ∧
      st.extractLsb' 0 2 = (match s.code with | .ok => 0#2 | .invalidLength => 1#2 | .invalidPadding => 2#2) ∧
      pd.extractLsb' 3 5 = 0#5 ∧ pd.extractLsb' 0 3 = s.pad ∧
      ∀ nv ∈ [(0, s.cmd.toNat), (1, s.len), (2, st.toNat), (3, s.errlen), (4, pd.toNat), (5, s.olen), (6, s.rlen)],
        hostAct (.readReg nv.1) s =
          .next { s with host := { s.host with seen := .reg nv.1 nv.2 :: s.host.seen } }

/-- R19, R197: a read of `STATUS` while BUSY shows BUSY = 1 and bits 7:3 zero, whatever stands in CODE; nothing of the
block changes. -/
def Obligations.StatusReadWhileBusyShowsBusy : Prop :=
  ∀ s : State, s.phase = .busy →
    ∃ v : Byte, v.getLsbD 2 = true ∧ v.extractLsb' 3 5 = 0#5 ∧
      hostAct (.readReg 2) s = .next { s with
        host := { s.host with seen := .reg 2 v.toNat :: s.host.seen }, draws := s.draws + 1 }

/-- R40, R48, R51: a write of `IN` is read back, changes no other cell of `IN`, no cell of `OUT` and no register. -/
def Obligations.InputWriteIsReadBack : Prop :=
  ∀ (s : State) (a : Nat) (v : Byte), s.phase = .idle → Config.fits (a + 1) = true →
    ∃ m, hostAct (.writeIn a v) s = .next { s with inp := m } ∧ Memory.read m a = some v ∧
      (∀ b, b ≠ a → Memory.read m b = s.inp.read b) ∧ (s.inp.wf → Memory.wf m)

/-- R41, R43: a read of `OUT` below `OLEN` while IDLE answers the byte; at or above `OLEN` it is refused,
where R191 and U2 allow a fault or any value too (log entry 6). -/
def Obligations.OutputReadAnswersBelowOlen : Prop :=
  ∀ (s : State) (a : Nat), s.Inv → s.phase = .idle →
    (a < s.olen → ∃ v, s.out.read a = some v ∧
      hostAct (.readOut a) s = .next { s with host := { s.host with seen := .outByte a v :: s.host.seen } }) ∧
    (s.olen ≤ a → hostAct (.readOut a) s = .refused (.outputNotValid a))

/-- What the host must not do while BUSY is refused. The writes of `IN`, `LEN` and `CMD`: R195, R196. The reads of `OUT` and of
the result registers: R197 says that their values are not defined then, R205 and U6 give the refusal (U6 allows any value
where a model must answer; this one does not answer, log entry 19). -/
def Obligations.HazardsWhileBusyAreRefused : Prop :=
  ∀ (s : State) (n a : Nat) (v : Byte), s.phase = .busy →
    hostAct (.writeIn a v) s = .refused .inputWriteWhileBusy ∧
    hostAct (.writeReg 1 n) s = .refused .inputWriteWhileBusy ∧
    hostAct (.writeReg 0 n) s = .refused .commandWhileBusy ∧
    hostAct (.readOut a) s = .refused .resultReadWhileBusy ∧
    ∀ r ∈ [3, 4, 5, 6], hostAct (.readReg r) s = .refused .resultReadWhileBusy

/-- R198: whatever the host does but reset, the results and `OUT` stay as they are. Of a block that is IDLE before and after,
R198 says so; that they stay through the write of `CMD` and while BUSY, where R19 and R197 leave them undefined, and what is
said of the windows and `GI`, is the model's choice (log entries 11 and 20). -/
def Obligations.HostActionsKeepTheResults : Prop :=
  ∀ (a : HostAction) (s t : State), a ≠ .reset → hostAct a s = .next t →
    t.results = s.results ∧ t.w7 = s.w7 ∧ t.w8 = s.w8 ∧ t.gi = s.gi

/-- R205: the host's liberties, exactly: in a state with the invariant an action has a next state if and only if the host
may do it. -/
def Obligations.HostActsExactlyAsItMay : Prop :=
  ∀ (a : HostAction) (s : State), s.Inv → ((∃ t, hostAct a s = .next t) ↔ hostMay a s)

/-- R81, R194: the document's call `encode(B)` made by the host from any IDLE state: after the writes, the start and the
core's move the block is IDLE and `OUT` holds `encode(B)`. -/
def Obligations.EncodeCallDeliversTheEncoding : Prop :=
  ∀ (s : State) (B : List Byte), s.phase = .idle → s.host.todo = callMoves (.encode B) →
    Config.fits (enclen B.length) = true →
    ∃ t, Sys2Proof.core.run (B.length + 3) s = .next t ∧ t.phase = .idle ∧ t.host.todo = [] ∧ t.code = .ok ∧
      t.olen = (encodeBytes B).length ∧ t.out = cellsFrom 0 (encodeBytes B)
end

