-- ==== Sys2Proof/Laws/Codec.lean ====
section
/-! SUPPORT. The small lemmas of the pure functions: the bits of the pieces of Pack and Unpack, and the lengths and
elements of the group-wise functions. -/

namespace Sys2Proof

@[simp] theorem G7.toList_length (w : G7) : w.toList.length = 7 := rfl

@[simp] theorem G8.toList_length (w : G8) : w.toList.length = 8 := rfl

theorem G7.toList_getElem? (w : G7) (i : Fin 7) : w.toList[i.val]? = some (w.get i) := by
  fin_cases i <;> rfl

theorem G8.toList_getElem? (w : G8) (k : Fin 8) : w.toList[k.val]? = some (w.get k) := by
  fin_cases k <;> rfl

@[simp] theorem G7.ofFn_get (f : Nat → Byte) (i : Fin 7) : (G7.ofFn f).get i = f i.val := by
  fin_cases i <;> rfl

@[simp] theorem G8.ofFn_get (f : Nat → Byte) (k : Fin 8) : (G8.ofFn f).get k = f k.val := by
  fin_cases k <;> rfl

theorem G7.ext_get {v w : G7} (h : ∀ i, v.get i = w.get i) : v = w := by
  cases v
  cases w
  simp only [G7.mk.injEq]
  exact ⟨h 0, h 1, h 2, h 3, h 4, h 5, h 6⟩

theorem G8.ext_get {v w : G8} (h : ∀ k, v.get k = w.get k) : v = w := by
  cases v
  cases w
  simp only [G8.mk.injEq]
  exact ⟨h 0, h 1, h 2, h 3, h 4, h 5, h 6, h 7⟩

namespace Machine

/-! ## Bits -/

theorem getLsbD_0x80 (k : Nat) : (0x80#8).getLsbD k = decide (k = 7) := by
  by_cases h : k < 8
  · interval_cases k <;> rfl
  · rw [BitVec.getLsbD_of_ge _ _ (by omega)]
    simp
    omega

theorem getLsbD_0x7F (k : Nat) : (0x7F#8).getLsbD k = decide (k < 7) := by
  by_cases h : k < 8
  · interval_cases k <;> rfl
  · rw [BitVec.getLsbD_of_ge _ _ (by omega)]
    simp
    omega

/-- The high bit of source byte `i` stands in bit 6 - i, and nothing else is set (40_transpose.md R90). -/
@[simp] theorem getLsbD_hBit (b : Byte) (i k : Nat) :
    (hBit b i).getLsbD k = (decide (i + 1 + k = 7) && b.getLsbD 7) := by
  simp only [hBit, BitVec.getLsbD_ushiftRight, BitVec.getLsbD_and, getLsbD_0x80]
  by_cases h : i + 1 + k = 7 <;> simp [h]

@[simp] theorem getLsbD_low7 (b : Byte) (k : Nat) :
    (low7 b).getLsbD k = (b.getLsbD k && decide (k < 7)) := by
  simp [low7, getLsbD_0x7F]

/-- Bit 7 of an unpacked byte is the OR of its two sources; the low bits are those of the low-bits byte
(40_transpose.md R92). -/
@[simp] theorem getLsbD_restore (h low : Byte) (i k : Nat) (hi : i < 7) :
    (restore h low i).getLsbD k = (low.getLsbD k || (decide (k = 7) && h.getLsbD (6 - i))) := by
  simp only [restore, BitVec.getLsbD_or, BitVec.getLsbD_and, BitVec.getLsbD_shiftLeft, getLsbD_0x80]
  by_cases hk : k = 7
  · subst hk
    have h1 : 7 - (i + 1) = 6 - i := by omega
    have h2 : ¬ 7 < i + 1 := by omega
    simp [h1, h2]
  · simp [hk]

/-! The same on `b[k]`, the form simp brings a bit of a byte to. -/

@[simp] theorem getElem_hBit (b : Byte) (i k : Nat) (hk : k < 8) :
    (hBit b i)[k] = (decide (i + 1 + k = 7) && b[7]) := by
  simpa [BitVec.getLsbD_eq_getElem, hk] using getLsbD_hBit b i k

@[simp] theorem getElem_low7 (b : Byte) (k : Nat) (hk : k < 8) :
    (low7 b)[k] = (b[k] && decide (k < 7)) := by
  simpa [BitVec.getLsbD_eq_getElem, hk] using getLsbD_low7 b k

theorem getElem_restore (h low : Byte) (i k : Nat) (hi : i < 7) (hk : k < 8) :
    (restore h low i)[k] = (low[k] || (decide (k = 7) && h.getLsbD (6 - i))) := by
  simpa [BitVec.getLsbD_eq_getElem, hk] using getLsbD_restore h low i k hi

/-! ## Elements of Pack and Unpack -/

theorem pack_get_succ (s : G7) (i : Fin 7) : (pack s).get i.succ = low7 (s.get i) := by
  fin_cases i <;> rfl

theorem unpack_get (y : G8) (i : Fin 7) : (unpack y).get i = restore y.y0 (y.get i.succ) i.val := by
  fin_cases i <;> rfl

/-! ## Concatenations of groups of one length -/

theorem length_flatMap_range (f : Nat → List Byte) (c n : Nat) (hf : ∀ g, (f g).length = c) :
    ((List.range n).flatMap f).length = c * n := by
  induction n with
  | zero => simp
  | succ n ih => simp [List.range_succ, ih, hf, Nat.mul_succ]

theorem getElem?_flatMap_range (f : Nat → List Byte) (c n : Nat) (hf : ∀ g, (f g).length = c) (g k : Nat)
    (hk : k < c) : ((List.range n).flatMap f)[c * g + k]? = if g < n then (f g)[k]? else none := by
  induction n with
  | zero => simp
  | succ n ih =>
    rw [List.range_succ, List.flatMap_append]
    have hl := length_flatMap_range f c n hf
    rcases Nat.lt_trichotomy g n with h | h | h
    · have : c * g + k < c * n := by
        calc c * g + k < c * g + c := by omega
          _ = c * (g + 1) := by rw [Nat.mul_succ]
          _ ≤ c * n := Nat.mul_le_mul_left c h
      rw [List.getElem?_append_left (by omega), ih]
      simp [h, Nat.lt_succ_of_lt h]
    · subst h
      rw [List.getElem?_append_right (by omega), hl]
      simp
    · have h1 : c * n + c ≤ c * g := by
        rw [← Nat.mul_succ]
        exact Nat.mul_le_mul_left c h
      rw [List.getElem?_append_right (by omega), hl]
      have : ¬ g < n + 1 := by omega
      simp [this, hf]
      omega

/-! ## The padding arithmetic -/

theorem pad_le (L : Nat) : pad L ≤ 6 := by
  unfold pad
  omega

/-- The logical stream has a length that is a multiple of 7 (30_encoding.md R66). -/
theorem length_logical (B : List Byte) : (logical B).length = B.length + 1 + pad B.length := by
  simp [logical]
  omega

theorem seven_mul_groups (L : Nat) : 7 * ((L + 1 + pad L) / 7) = L + 1 + pad L := by
  unfold pad
  omega

theorem enclen_eq_groups (L : Nat) : enclen L = 8 * ((L + 1 + pad L) / 7) := by
  simp [enclen, Nat.mul_comm]

/-! ## The message functions -/

theorem length_encodeBytes (B : List Byte) : (encodeBytes B).length = enclen B.length := by
  unfold encodeBytes
  rw [length_flatMap_range _ 8 _ (fun _ => rfl), length_logical, enclen_eq_groups]

theorem length_lambda (S : List Byte) : (lambda S).length = 7 * (S.length / 8) := by
  unfold lambda
  rw [length_flatMap_range _ 7 _ (fun _ => rfl)]

theorem getElem?_encodeBytes (B : List Byte) (g k : Nat) (hk : k < 8) :
    (encodeBytes B)[8 * g + k]? =
      if g < (logical B).length / 7 then (pack (group7At (logical B) (7 * g))).toList[k]? else none := by
  unfold encodeBytes
  exact getElem?_flatMap_range _ 8 _ (fun _ => rfl) g k hk

theorem getElem?_lambda (S : List Byte) (g i : Nat) (hi : i < 7) :
    (lambda S)[7 * g + i]? =
      if g < S.length / 8 then (unpack (group8At S (8 * g))).toList[i]? else none := by
  unfold lambda
  exact getElem?_flatMap_range _ 7 _ (fun _ => rfl) g i hi

end Machine

end Sys2Proof
end

