-- ==== Sys2Proof/Laws/Memory.lean ====
section
/-! SUPPORT. The laws of a byte space: read after write, the canonical form, and runs of consecutive cells. -/

namespace Sys2Proof

/-! ## Lengths that fit -/

theorem Config.fits_of_le_eight {n : Nat} (h : n ≤ 8) : Config.fits n = true := by
  simp [Config.fits, h]

/-- MAXLEN is an upper bound: what is below a length that fits, fits. -/
theorem Config.fits_mono {m n : Nat} (h : m ≤ n) (hn : Config.fits n = true) : Config.fits m = true := by
  unfold Config.fits at *
  generalize Config.maxLen = o at *
  cases o with
  | none => simp
  | some x =>
    simp at hn ⊢
    omega

@[simp] theorem Config.fits_zero : Config.fits 0 = true := Config.fits_of_le_eight (by decide)

namespace Machine

/-! ## Read after write -/

@[simp] theorem Memory.read_nil (a : Nat) : Memory.read [] a = none := rfl

@[simp] theorem Memory.read_write_same (m : Memory) (a : Nat) (v : Byte) : (Memory.write m a v).read a = some v := by
  induction m with
  | nil => simp [Memory.write, Memory.read]
  | cons c m ih =>
    unfold Memory.write
    split
    · simp [Memory.read]
    · split
      · simp [Memory.read]
      · rename_i h
        simp [Memory.read, ih, Ne.symm h]

theorem Memory.read_write_other (m : Memory) {a b : Nat} (v : Byte) (h : b ≠ a) :
    (Memory.write m a v).read b = m.read b := by
  induction m with
  | nil => simp [Memory.write, Memory.read, Ne.symm h]
  | cons c m ih =>
    unfold Memory.write
    split
    · simp [Memory.read, Ne.symm h]
    · split
      · rename_i h2
        have : c.1 ≠ b := fun e => h (by omega)
        simp [Memory.read, Ne.symm h, this]
      · simp [Memory.read, ih]

/-! ## The canonical form -/

theorem Memory.mem_write {m : Memory} {a : Nat} {v : Byte} {c : Host.Cell} (h : c ∈ Memory.write m a v) :
    c = (a, v) ∨ c ∈ m := by
  induction m with
  | nil => simpa [Memory.write] using h
  | cons d m ih =>
    unfold Memory.write at h
    split at h
    · simpa using h
    · split at h
      · rcases List.mem_cons.1 h with h | h <;> simp [h]
      · rcases List.mem_cons.1 h with h | h
        · simp [h]
        · rcases ih h with h | h <;> simp [h]

/-- A write keeps the canonical form, at an index that exists. -/
theorem Memory.write_wf {m : Memory} {a : Nat} (v : Byte) (hm : m.wf) (ha : Config.fits (a + 1) = true) :
    (Memory.write m a v).wf := by
  refine ⟨?_, fun c hc => ?_⟩
  · obtain ⟨hp, -⟩ := hm
    induction m with
    | nil => simp [Memory.write]
    | cons d m ih =>
      obtain ⟨hd, hp⟩ := List.pairwise_cons.1 hp
      unfold Memory.write
      split
      · rename_i h
        refine List.pairwise_cons.2 ⟨fun c hc => ?_, List.pairwise_cons.2 ⟨hd, hp⟩⟩
        rcases List.mem_cons.1 hc with rfl | hc
        · exact h
        · exact Nat.lt_trans h (hd c hc)
      · split
        · rename_i h
          exact List.pairwise_cons.2 ⟨fun c hc => by simpa [h] using hd c hc, hp⟩
        · refine List.pairwise_cons.2 ⟨fun c hc => ?_, ih hp⟩
          rcases Memory.mem_write hc with rfl | hc
          · show d.1 < a
            omega
          · exact hd c hc
  · rcases Memory.mem_write hc with rfl | hc
    · exact ha
    · exact hm.2 c hc

theorem Memory.nil_wf : Memory.wf [] := by simp [Memory.wf]

theorem Memory.mem_of_read {m : Memory} {a : Nat} {v : Byte} (h : m.read a = some v) : (a, v) ∈ m := by
  induction m with
  | nil => simp at h
  | cons c m ih =>
    unfold Memory.read at h
    split at h
    · rename_i hc
      obtain rfl : c.2 = v := by simpa using h
      simp [← hc]
    · simp [ih h]

/-- A cell of a byte space in canonical form that has a value exists. -/
theorem Memory.fits_of_read {m : Memory} {a : Nat} {v : Byte} (hm : m.wf) (h : m.read a = some v) :
    Config.fits (a + 1) = true := hm.2 _ (Memory.mem_of_read h)

theorem Memory.read_isSome_iff {m : Memory} {a : Nat} : (m.read a).isSome = true ↔ a ∈ m.map Prod.fst := by
  induction m with
  | nil => simp
  | cons c m ih =>
    unfold Memory.read
    split
    · rename_i h
      simp [h]
    · rename_i h
      simp [ih, Ne.symm h]

/-! ## Runs of consecutive cells -/

@[simp] theorem cellsFrom_nil (a : Nat) : cellsFrom a [] = [] := rfl

@[simp] theorem cellsFrom_map_fst (a : Nat) (bs : List Byte) :
    (cellsFrom a bs).map Prod.fst = List.range' a bs.length := by
  induction bs generalizing a with
  | nil => rfl
  | cons b bs ih => simp [cellsFrom, ih, List.range'_succ]

theorem cellsFrom_zero_map_fst (bs : List Byte) : (cellsFrom 0 bs).map Prod.fst = List.range bs.length := by
  simp [List.range_eq_range']

theorem read_cellsFrom (a : Nat) (bs : List Byte) (b : Nat) :
    Memory.read (cellsFrom a bs) b = if a ≤ b then bs[b - a]? else none := by
  induction bs generalizing a with
  | nil => simp
  | cons v bs ih =>
    unfold cellsFrom Memory.read
    rcases Nat.lt_trichotomy a b with h | h | h
    · obtain ⟨k, rfl⟩ : ∃ k, b = a + 1 + k := ⟨b - a - 1, by omega⟩
      have e1 : a + 1 + k - a = k + 1 := by omega
      have e2 : a + 1 + k - (a + 1) = k := by omega
      simp [ih, e1, e2, show ¬ a = a + 1 + k by omega, show a ≤ a + 1 + k by omega]
    · subst h
      simp
    · simp [ih, show ¬ a = b by omega, show ¬ a + 1 ≤ b by omega, show ¬ a ≤ b by omega]

/-- Reading a byte space that holds `bs` from index 0 on. -/
@[simp] theorem read_cellsFrom_zero (bs : List Byte) (b : Nat) : Memory.read (cellsFrom 0 bs) b = bs[b]? := by
  simp [read_cellsFrom]

/-- Writing the next index of a run makes it longer. -/
theorem write_cellsFrom_next (a : Nat) (bs : List Byte) (v : Byte) :
    Memory.write (cellsFrom a bs) (a + bs.length) v = cellsFrom a (bs ++ [v]) := by
  induction bs generalizing a with
  | nil => rfl
  | cons b bs ih =>
    have h := ih (a + 1)
    rw [show a + 1 + bs.length = a + (b :: bs).length by simp; omega] at h
    show Memory.write ((a, b) :: cellsFrom (a + 1) bs) (a + (b :: bs).length) v =
      (a, b) :: cellsFrom (a + 1) (bs ++ [v])
    rw [← h]
    simp [Memory.write]

/-- What writing a list of bytes does to `OUT` when it goes on where the run in `OUT` ends. -/
theorem State.writeOutList_out (s : State) (bs cs : List Byte) (h : s.out = cellsFrom 0 bs) :
    (s.writeOutList bs.length cs).out = cellsFrom 0 (bs ++ cs) := by
  induction cs generalizing s bs with
  | nil => simpa [State.writeOutList] using h
  | cons c cs ih =>
    have h1 : (s.writeOut bs.length c).out = cellsFrom 0 (bs ++ [c]) := by
      have := write_cellsFrom_next 0 bs c
      rw [Nat.zero_add] at this
      simpa [State.writeOut, State.withOut, h] using this
    have h2 := ih (s.writeOut bs.length c) (bs ++ [c]) h1
    simpa [State.writeOutList] using h2

end Machine

end Sys2Proof
end

