-- ==== Sys2Proof/Laws/State.lean ====
section
/-! SUPPORT. One lemma per field per update of the state: no later proof unfolds a record update. -/

namespace Sys2Proof.Machine

variable (s : State)

/-! ### `withIn` -/

@[simp] theorem State.withIn_inp (m : Memory) : (s.withIn m).inp = m := rfl
@[simp] theorem State.withIn_out (m : Memory) : (s.withIn m).out = s.out := rfl
@[simp] theorem State.withIn_w7 (m : Memory) : (s.withIn m).w7 = s.w7 := rfl
@[simp] theorem State.withIn_w8 (m : Memory) : (s.withIn m).w8 = s.w8 := rfl
@[simp] theorem State.withIn_gi (m : Memory) : (s.withIn m).gi = s.gi := rfl
@[simp] theorem State.withIn_phase (m : Memory) : (s.withIn m).phase = s.phase := rfl
@[simp] theorem State.withIn_cmd (m : Memory) : (s.withIn m).cmd = s.cmd := rfl
@[simp] theorem State.withIn_len (m : Memory) : (s.withIn m).len = s.len := rfl
@[simp] theorem State.withIn_code (m : Memory) : (s.withIn m).code = s.code := rfl
@[simp] theorem State.withIn_errlen (m : Memory) : (s.withIn m).errlen = s.errlen := rfl
@[simp] theorem State.withIn_pad (m : Memory) : (s.withIn m).pad = s.pad := rfl
@[simp] theorem State.withIn_olen (m : Memory) : (s.withIn m).olen = s.olen := rfl
@[simp] theorem State.withIn_rlen (m : Memory) : (s.withIn m).rlen = s.rlen := rfl
@[simp] theorem State.withIn_host (m : Memory) : (s.withIn m).host = s.host := rfl
@[simp] theorem State.withIn_draws (m : Memory) : (s.withIn m).draws = s.draws := rfl

/-! ### `withOut` -/

@[simp] theorem State.withOut_inp (m : Memory) : (s.withOut m).inp = s.inp := rfl
@[simp] theorem State.withOut_out (m : Memory) : (s.withOut m).out = m := rfl
@[simp] theorem State.withOut_w7 (m : Memory) : (s.withOut m).w7 = s.w7 := rfl
@[simp] theorem State.withOut_w8 (m : Memory) : (s.withOut m).w8 = s.w8 := rfl
@[simp] theorem State.withOut_gi (m : Memory) : (s.withOut m).gi = s.gi := rfl
@[simp] theorem State.withOut_phase (m : Memory) : (s.withOut m).phase = s.phase := rfl
@[simp] theorem State.withOut_cmd (m : Memory) : (s.withOut m).cmd = s.cmd := rfl
@[simp] theorem State.withOut_len (m : Memory) : (s.withOut m).len = s.len := rfl
@[simp] theorem State.withOut_code (m : Memory) : (s.withOut m).code = s.code := rfl
@[simp] theorem State.withOut_errlen (m : Memory) : (s.withOut m).errlen = s.errlen := rfl
@[simp] theorem State.withOut_pad (m : Memory) : (s.withOut m).pad = s.pad := rfl
@[simp] theorem State.withOut_olen (m : Memory) : (s.withOut m).olen = s.olen := rfl
@[simp] theorem State.withOut_rlen (m : Memory) : (s.withOut m).rlen = s.rlen := rfl
@[simp] theorem State.withOut_host (m : Memory) : (s.withOut m).host = s.host := rfl
@[simp] theorem State.withOut_draws (m : Memory) : (s.withOut m).draws = s.draws := rfl

/-! ### `withW7` -/

@[simp] theorem State.withW7_inp (w : G7) : (s.withW7 w).inp = s.inp := rfl
@[simp] theorem State.withW7_out (w : G7) : (s.withW7 w).out = s.out := rfl
@[simp] theorem State.withW7_w7 (w : G7) : (s.withW7 w).w7 = w := rfl
@[simp] theorem State.withW7_w8 (w : G7) : (s.withW7 w).w8 = s.w8 := rfl
@[simp] theorem State.withW7_gi (w : G7) : (s.withW7 w).gi = s.gi := rfl
@[simp] theorem State.withW7_phase (w : G7) : (s.withW7 w).phase = s.phase := rfl
@[simp] theorem State.withW7_cmd (w : G7) : (s.withW7 w).cmd = s.cmd := rfl
@[simp] theorem State.withW7_len (w : G7) : (s.withW7 w).len = s.len := rfl
@[simp] theorem State.withW7_code (w : G7) : (s.withW7 w).code = s.code := rfl
@[simp] theorem State.withW7_errlen (w : G7) : (s.withW7 w).errlen = s.errlen := rfl
@[simp] theorem State.withW7_pad (w : G7) : (s.withW7 w).pad = s.pad := rfl
@[simp] theorem State.withW7_olen (w : G7) : (s.withW7 w).olen = s.olen := rfl
@[simp] theorem State.withW7_rlen (w : G7) : (s.withW7 w).rlen = s.rlen := rfl
@[simp] theorem State.withW7_host (w : G7) : (s.withW7 w).host = s.host := rfl
@[simp] theorem State.withW7_draws (w : G7) : (s.withW7 w).draws = s.draws := rfl

/-! ### `withW8` -/

@[simp] theorem State.withW8_inp (w : G8) : (s.withW8 w).inp = s.inp := rfl
@[simp] theorem State.withW8_out (w : G8) : (s.withW8 w).out = s.out := rfl
@[simp] theorem State.withW8_w7 (w : G8) : (s.withW8 w).w7 = s.w7 := rfl
@[simp] theorem State.withW8_w8 (w : G8) : (s.withW8 w).w8 = w := rfl
@[simp] theorem State.withW8_gi (w : G8) : (s.withW8 w).gi = s.gi := rfl
@[simp] theorem State.withW8_phase (w : G8) : (s.withW8 w).phase = s.phase := rfl
@[simp] theorem State.withW8_cmd (w : G8) : (s.withW8 w).cmd = s.cmd := rfl
@[simp] theorem State.withW8_len (w : G8) : (s.withW8 w).len = s.len := rfl
@[simp] theorem State.withW8_code (w : G8) : (s.withW8 w).code = s.code := rfl
@[simp] theorem State.withW8_errlen (w : G8) : (s.withW8 w).errlen = s.errlen := rfl
@[simp] theorem State.withW8_pad (w : G8) : (s.withW8 w).pad = s.pad := rfl
@[simp] theorem State.withW8_olen (w : G8) : (s.withW8 w).olen = s.olen := rfl
@[simp] theorem State.withW8_rlen (w : G8) : (s.withW8 w).rlen = s.rlen := rfl
@[simp] theorem State.withW8_host (w : G8) : (s.withW8 w).host = s.host := rfl
@[simp] theorem State.withW8_draws (w : G8) : (s.withW8 w).draws = s.draws := rfl

/-! ### `withGi` -/

@[simp] theorem State.withGi_inp (g : Nat) : (s.withGi g).inp = s.inp := rfl
@[simp] theorem State.withGi_out (g : Nat) : (s.withGi g).out = s.out := rfl
@[simp] theorem State.withGi_w7 (g : Nat) : (s.withGi g).w7 = s.w7 := rfl
@[simp] theorem State.withGi_w8 (g : Nat) : (s.withGi g).w8 = s.w8 := rfl
@[simp] theorem State.withGi_gi (g : Nat) : (s.withGi g).gi = g := rfl
@[simp] theorem State.withGi_phase (g : Nat) : (s.withGi g).phase = s.phase := rfl
@[simp] theorem State.withGi_cmd (g : Nat) : (s.withGi g).cmd = s.cmd := rfl
@[simp] theorem State.withGi_len (g : Nat) : (s.withGi g).len = s.len := rfl
@[simp] theorem State.withGi_code (g : Nat) : (s.withGi g).code = s.code := rfl
@[simp] theorem State.withGi_errlen (g : Nat) : (s.withGi g).errlen = s.errlen := rfl
@[simp] theorem State.withGi_pad (g : Nat) : (s.withGi g).pad = s.pad := rfl
@[simp] theorem State.withGi_olen (g : Nat) : (s.withGi g).olen = s.olen := rfl
@[simp] theorem State.withGi_rlen (g : Nat) : (s.withGi g).rlen = s.rlen := rfl
@[simp] theorem State.withGi_host (g : Nat) : (s.withGi g).host = s.host := rfl
@[simp] theorem State.withGi_draws (g : Nat) : (s.withGi g).draws = s.draws := rfl

/-! ### `withLen` -/

@[simp] theorem State.withLen_inp (n : Nat) : (s.withLen n).inp = s.inp := rfl
@[simp] theorem State.withLen_out (n : Nat) : (s.withLen n).out = s.out := rfl
@[simp] theorem State.withLen_w7 (n : Nat) : (s.withLen n).w7 = s.w7 := rfl
@[simp] theorem State.withLen_w8 (n : Nat) : (s.withLen n).w8 = s.w8 := rfl
@[simp] theorem State.withLen_gi (n : Nat) : (s.withLen n).gi = s.gi := rfl
@[simp] theorem State.withLen_phase (n : Nat) : (s.withLen n).phase = s.phase := rfl
@[simp] theorem State.withLen_cmd (n : Nat) : (s.withLen n).cmd = s.cmd := rfl
@[simp] theorem State.withLen_len (n : Nat) : (s.withLen n).len = n := rfl
@[simp] theorem State.withLen_code (n : Nat) : (s.withLen n).code = s.code := rfl
@[simp] theorem State.withLen_errlen (n : Nat) : (s.withLen n).errlen = s.errlen := rfl
@[simp] theorem State.withLen_pad (n : Nat) : (s.withLen n).pad = s.pad := rfl
@[simp] theorem State.withLen_olen (n : Nat) : (s.withLen n).olen = s.olen := rfl
@[simp] theorem State.withLen_rlen (n : Nat) : (s.withLen n).rlen = s.rlen := rfl
@[simp] theorem State.withLen_host (n : Nat) : (s.withLen n).host = s.host := rfl
@[simp] theorem State.withLen_draws (n : Nat) : (s.withLen n).draws = s.draws := rfl

/-! ### `writeOut` -/

@[simp] theorem State.writeOut_inp (a : Nat) (v : Byte) : (s.writeOut a v).inp = s.inp := rfl
@[simp] theorem State.writeOut_out (a : Nat) (v : Byte) : (s.writeOut a v).out = s.out.write a v := rfl
@[simp] theorem State.writeOut_w7 (a : Nat) (v : Byte) : (s.writeOut a v).w7 = s.w7 := rfl
@[simp] theorem State.writeOut_w8 (a : Nat) (v : Byte) : (s.writeOut a v).w8 = s.w8 := rfl
@[simp] theorem State.writeOut_gi (a : Nat) (v : Byte) : (s.writeOut a v).gi = s.gi := rfl
@[simp] theorem State.writeOut_phase (a : Nat) (v : Byte) : (s.writeOut a v).phase = s.phase := rfl
@[simp] theorem State.writeOut_cmd (a : Nat) (v : Byte) : (s.writeOut a v).cmd = s.cmd := rfl
@[simp] theorem State.writeOut_len (a : Nat) (v : Byte) : (s.writeOut a v).len = s.len := rfl
@[simp] theorem State.writeOut_code (a : Nat) (v : Byte) : (s.writeOut a v).code = s.code := rfl
@[simp] theorem State.writeOut_errlen (a : Nat) (v : Byte) : (s.writeOut a v).errlen = s.errlen := rfl
@[simp] theorem State.writeOut_pad (a : Nat) (v : Byte) : (s.writeOut a v).pad = s.pad := rfl
@[simp] theorem State.writeOut_olen (a : Nat) (v : Byte) : (s.writeOut a v).olen = s.olen := rfl
@[simp] theorem State.writeOut_rlen (a : Nat) (v : Byte) : (s.writeOut a v).rlen = s.rlen := rfl
@[simp] theorem State.writeOut_host (a : Nat) (v : Byte) : (s.writeOut a v).host = s.host := rfl
@[simp] theorem State.writeOut_draws (a : Nat) (v : Byte) : (s.writeOut a v).draws = s.draws := rfl

/-! ### `beginCommand` -/

@[simp] theorem State.beginCommand_inp : s.beginCommand.inp = s.inp := rfl
@[simp] theorem State.beginCommand_out : s.beginCommand.out = [] := rfl
@[simp] theorem State.beginCommand_w7 : s.beginCommand.w7 = s.w7 := rfl
@[simp] theorem State.beginCommand_w8 : s.beginCommand.w8 = s.w8 := rfl
@[simp] theorem State.beginCommand_gi : s.beginCommand.gi = 0 := rfl
@[simp] theorem State.beginCommand_phase : s.beginCommand.phase = s.phase := rfl
@[simp] theorem State.beginCommand_cmd : s.beginCommand.cmd = s.cmd := rfl
@[simp] theorem State.beginCommand_len : s.beginCommand.len = s.len := rfl
@[simp] theorem State.beginCommand_code : s.beginCommand.code = s.code := rfl
@[simp] theorem State.beginCommand_errlen : s.beginCommand.errlen = s.errlen := rfl
@[simp] theorem State.beginCommand_pad : s.beginCommand.pad = s.pad := rfl
@[simp] theorem State.beginCommand_olen : s.beginCommand.olen = s.olen := rfl
@[simp] theorem State.beginCommand_rlen : s.beginCommand.rlen = s.rlen := rfl
@[simp] theorem State.beginCommand_host : s.beginCommand.host = s.host := rfl
@[simp] theorem State.beginCommand_draws : s.beginCommand.draws = s.draws := rfl

/-! ### `finish` -/

@[simp] theorem State.finish_inp (p : BitVec 3) (m n : Nat) : (s.finish p m n).inp = s.inp := rfl
@[simp] theorem State.finish_out (p : BitVec 3) (m n : Nat) : (s.finish p m n).out = s.out := rfl
@[simp] theorem State.finish_w7 (p : BitVec 3) (m n : Nat) : (s.finish p m n).w7 = s.w7 := rfl
@[simp] theorem State.finish_w8 (p : BitVec 3) (m n : Nat) : (s.finish p m n).w8 = s.w8 := rfl
@[simp] theorem State.finish_gi (p : BitVec 3) (m n : Nat) : (s.finish p m n).gi = s.gi := rfl
@[simp] theorem State.finish_phase (p : BitVec 3) (m n : Nat) : (s.finish p m n).phase = .idle := rfl
@[simp] theorem State.finish_cmd (p : BitVec 3) (m n : Nat) : (s.finish p m n).cmd = s.cmd := rfl
@[simp] theorem State.finish_len (p : BitVec 3) (m n : Nat) : (s.finish p m n).len = s.len := rfl
@[simp] theorem State.finish_code (p : BitVec 3) (m n : Nat) : (s.finish p m n).code = .ok := rfl
@[simp] theorem State.finish_errlen (p : BitVec 3) (m n : Nat) : (s.finish p m n).errlen = 0 := rfl
@[simp] theorem State.finish_pad (p : BitVec 3) (m n : Nat) : (s.finish p m n).pad = p := rfl
@[simp] theorem State.finish_olen (p : BitVec 3) (m n : Nat) : (s.finish p m n).olen = m := rfl
@[simp] theorem State.finish_rlen (p : BitVec 3) (m n : Nat) : (s.finish p m n).rlen = n := rfl
@[simp] theorem State.finish_host (p : BitVec 3) (m n : Nat) : (s.finish p m n).host = s.host := rfl
@[simp] theorem State.finish_draws (p : BitVec 3) (m n : Nat) : (s.finish p m n).draws = s.draws := rfl

/-! ### `raise` -/

@[simp] theorem State.raise_inp (e : DecodeError) : (s.raise e).inp = s.inp := rfl
@[simp] theorem State.raise_out (e : DecodeError) : (s.raise e).out = s.out := rfl
@[simp] theorem State.raise_w7 (e : DecodeError) : (s.raise e).w7 = s.w7 := rfl
@[simp] theorem State.raise_w8 (e : DecodeError) : (s.raise e).w8 = s.w8 := rfl
@[simp] theorem State.raise_gi (e : DecodeError) : (s.raise e).gi = s.gi := rfl
@[simp] theorem State.raise_phase (e : DecodeError) : (s.raise e).phase = .idle := rfl
@[simp] theorem State.raise_cmd (e : DecodeError) : (s.raise e).cmd = s.cmd := rfl
@[simp] theorem State.raise_len (e : DecodeError) : (s.raise e).len = s.len := rfl
@[simp] theorem State.raise_code (e : DecodeError) : (s.raise e).code = errorCode e := rfl
@[simp] theorem State.raise_errlen (e : DecodeError) : (s.raise e).errlen = errorLength e := rfl
@[simp] theorem State.raise_pad (e : DecodeError) : (s.raise e).pad = 0 := rfl
@[simp] theorem State.raise_olen (e : DecodeError) : (s.raise e).olen = 0 := rfl
@[simp] theorem State.raise_rlen (e : DecodeError) : (s.raise e).rlen = 0 := rfl
@[simp] theorem State.raise_host (e : DecodeError) : (s.raise e).host = s.host := rfl
@[simp] theorem State.raise_draws (e : DecodeError) : (s.raise e).draws = s.draws := rfl

/-! ### `observe` -/

@[simp] theorem State.observe_inp (o : Observation) : (s.observe o).inp = s.inp := rfl
@[simp] theorem State.observe_out (o : Observation) : (s.observe o).out = s.out := rfl
@[simp] theorem State.observe_w7 (o : Observation) : (s.observe o).w7 = s.w7 := rfl
@[simp] theorem State.observe_w8 (o : Observation) : (s.observe o).w8 = s.w8 := rfl
@[simp] theorem State.observe_gi (o : Observation) : (s.observe o).gi = s.gi := rfl
@[simp] theorem State.observe_phase (o : Observation) : (s.observe o).phase = s.phase := rfl
@[simp] theorem State.observe_cmd (o : Observation) : (s.observe o).cmd = s.cmd := rfl
@[simp] theorem State.observe_len (o : Observation) : (s.observe o).len = s.len := rfl
@[simp] theorem State.observe_code (o : Observation) : (s.observe o).code = s.code := rfl
@[simp] theorem State.observe_errlen (o : Observation) : (s.observe o).errlen = s.errlen := rfl
@[simp] theorem State.observe_pad (o : Observation) : (s.observe o).pad = s.pad := rfl
@[simp] theorem State.observe_olen (o : Observation) : (s.observe o).olen = s.olen := rfl
@[simp] theorem State.observe_rlen (o : Observation) : (s.observe o).rlen = s.rlen := rfl
@[simp] theorem State.observe_host (o : Observation) : (s.observe o).host = { s.host with seen := o :: s.host.seen } := rfl
@[simp] theorem State.observe_draws (o : Observation) : (s.observe o).draws = s.draws := rfl

/-! ### `start` -/

@[simp] theorem State.start_inp (w : Byte) : (s.start w).inp = s.inp := rfl
@[simp] theorem State.start_out (w : Byte) : (s.start w).out = s.out := rfl
@[simp] theorem State.start_w7 (w : Byte) : (s.start w).w7 = s.w7 := rfl
@[simp] theorem State.start_w8 (w : Byte) : (s.start w).w8 = s.w8 := rfl
@[simp] theorem State.start_gi (w : Byte) : (s.start w).gi = s.gi := rfl
@[simp] theorem State.start_phase (w : Byte) : (s.start w).phase = .busy := rfl
@[simp] theorem State.start_cmd (w : Byte) : (s.start w).cmd = w := rfl
@[simp] theorem State.start_len (w : Byte) : (s.start w).len = s.len := rfl
@[simp] theorem State.start_code (w : Byte) : (s.start w).code = s.code := rfl
@[simp] theorem State.start_errlen (w : Byte) : (s.start w).errlen = s.errlen := rfl
@[simp] theorem State.start_pad (w : Byte) : (s.start w).pad = s.pad := rfl
@[simp] theorem State.start_olen (w : Byte) : (s.start w).olen = s.olen := rfl
@[simp] theorem State.start_rlen (w : Byte) : (s.start w).rlen = s.rlen := rfl
@[simp] theorem State.start_host (w : Byte) : (s.start w).host = s.host := rfl
@[simp] theorem State.start_draws (w : Byte) : (s.start w).draws = s.draws := rfl

/-! ### `loadPacked` -/

@[simp] theorem State.loadPacked_inp (w : G7) : (s.loadPacked w).inp = s.inp := rfl
@[simp] theorem State.loadPacked_out (w : G7) : (s.loadPacked w).out = s.out := rfl
@[simp] theorem State.loadPacked_w7 (w : G7) : (s.loadPacked w).w7 = w := rfl
@[simp] theorem State.loadPacked_w8 (w : G7) : (s.loadPacked w).w8 = pack w := rfl
@[simp] theorem State.loadPacked_gi (w : G7) : (s.loadPacked w).gi = s.gi := rfl
@[simp] theorem State.loadPacked_phase (w : G7) : (s.loadPacked w).phase = s.phase := rfl
@[simp] theorem State.loadPacked_cmd (w : G7) : (s.loadPacked w).cmd = s.cmd := rfl
@[simp] theorem State.loadPacked_len (w : G7) : (s.loadPacked w).len = s.len := rfl
@[simp] theorem State.loadPacked_code (w : G7) : (s.loadPacked w).code = s.code := rfl
@[simp] theorem State.loadPacked_errlen (w : G7) : (s.loadPacked w).errlen = s.errlen := rfl
@[simp] theorem State.loadPacked_pad (w : G7) : (s.loadPacked w).pad = s.pad := rfl
@[simp] theorem State.loadPacked_olen (w : G7) : (s.loadPacked w).olen = s.olen := rfl
@[simp] theorem State.loadPacked_rlen (w : G7) : (s.loadPacked w).rlen = s.rlen := rfl
@[simp] theorem State.loadPacked_host (w : G7) : (s.loadPacked w).host = s.host := rfl
@[simp] theorem State.loadPacked_draws (w : G7) : (s.loadPacked w).draws = s.draws := rfl

/-! ### `writeOutList`: only `OUT` changes -/

@[simp] theorem State.writeOutList_inp (s : State) (a : Nat) (bs : List Byte) :
    (s.writeOutList a bs).inp = s.inp := by
  induction bs generalizing s a with
  | nil => rfl
  | cons b bs ih => simp [State.writeOutList, ih]

@[simp] theorem State.writeOutList_w7 (s : State) (a : Nat) (bs : List Byte) :
    (s.writeOutList a bs).w7 = s.w7 := by
  induction bs generalizing s a with
  | nil => rfl
  | cons b bs ih => simp [State.writeOutList, ih]

@[simp] theorem State.writeOutList_w8 (s : State) (a : Nat) (bs : List Byte) :
    (s.writeOutList a bs).w8 = s.w8 := by
  induction bs generalizing s a with
  | nil => rfl
  | cons b bs ih => simp [State.writeOutList, ih]

@[simp] theorem State.writeOutList_gi (s : State) (a : Nat) (bs : List Byte) :
    (s.writeOutList a bs).gi = s.gi := by
  induction bs generalizing s a with
  | nil => rfl
  | cons b bs ih => simp [State.writeOutList, ih]

@[simp] theorem State.writeOutList_phase (s : State) (a : Nat) (bs : List Byte) :
    (s.writeOutList a bs).phase = s.phase := by
  induction bs generalizing s a with
  | nil => rfl
  | cons b bs ih => simp [State.writeOutList, ih]

@[simp] theorem State.writeOutList_cmd (s : State) (a : Nat) (bs : List Byte) :
    (s.writeOutList a bs).cmd = s.cmd := by
  induction bs generalizing s a with
  | nil => rfl
  | cons b bs ih => simp [State.writeOutList, ih]

@[simp] theorem State.writeOutList_len (s : State) (a : Nat) (bs : List Byte) :
    (s.writeOutList a bs).len = s.len := by
  induction bs generalizing s a with
  | nil => rfl
  | cons b bs ih => simp [State.writeOutList, ih]

@[simp] theorem State.writeOutList_code (s : State) (a : Nat) (bs : List Byte) :
    (s.writeOutList a bs).code = s.code := by
  induction bs generalizing s a with
  | nil => rfl
  | cons b bs ih => simp [State.writeOutList, ih]

@[simp] theorem State.writeOutList_errlen (s : State) (a : Nat) (bs : List Byte) :
    (s.writeOutList a bs).errlen = s.errlen := by
  induction bs generalizing s a with
  | nil => rfl
  | cons b bs ih => simp [State.writeOutList, ih]

@[simp] theorem State.writeOutList_pad (s : State) (a : Nat) (bs : List Byte) :
    (s.writeOutList a bs).pad = s.pad := by
  induction bs generalizing s a with
  | nil => rfl
  | cons b bs ih => simp [State.writeOutList, ih]

@[simp] theorem State.writeOutList_olen (s : State) (a : Nat) (bs : List Byte) :
    (s.writeOutList a bs).olen = s.olen := by
  induction bs generalizing s a with
  | nil => rfl
  | cons b bs ih => simp [State.writeOutList, ih]

@[simp] theorem State.writeOutList_rlen (s : State) (a : Nat) (bs : List Byte) :
    (s.writeOutList a bs).rlen = s.rlen := by
  induction bs generalizing s a with
  | nil => rfl
  | cons b bs ih => simp [State.writeOutList, ih]

@[simp] theorem State.writeOutList_host (s : State) (a : Nat) (bs : List Byte) :
    (s.writeOutList a bs).host = s.host := by
  induction bs generalizing s a with
  | nil => rfl
  | cons b bs ih => simp [State.writeOutList, ih]

@[simp] theorem State.writeOutList_draws (s : State) (a : Nat) (bs : List Byte) :
    (s.writeOutList a bs).draws = s.draws := by
  induction bs generalizing s a with
  | nil => rfl
  | cons b bs ih => simp [State.writeOutList, ih]

/-! ### `applyReset` -/

@[simp] theorem State.applyReset_inp : s.applyReset.inp = [] := rfl
@[simp] theorem State.applyReset_out : s.applyReset.out = [] := rfl
@[simp] theorem State.applyReset_w7 : s.applyReset.w7 = resetW7 := rfl
@[simp] theorem State.applyReset_w8 : s.applyReset.w8 = resetW8 := rfl
@[simp] theorem State.applyReset_gi : s.applyReset.gi = 0 := rfl
@[simp] theorem State.applyReset_phase : s.applyReset.phase = .idle := rfl
@[simp] theorem State.applyReset_cmd : s.applyReset.cmd = 0 := rfl
@[simp] theorem State.applyReset_len : s.applyReset.len = 0 := rfl
@[simp] theorem State.applyReset_code : s.applyReset.code = .ok := rfl
@[simp] theorem State.applyReset_errlen : s.applyReset.errlen = 0 := rfl
@[simp] theorem State.applyReset_pad : s.applyReset.pad = 0 := rfl
@[simp] theorem State.applyReset_olen : s.applyReset.olen = 0 := rfl
@[simp] theorem State.applyReset_rlen : s.applyReset.rlen = 0 := rfl
@[simp] theorem State.applyReset_host : s.applyReset.host = s.host := rfl
@[simp] theorem State.applyReset_draws : s.applyReset.draws = s.draws := rfl

end Sys2Proof.Machine
end

