-- ==== Sys2Proof/Laws/Operands.lean ====
section
/-! SUPPORT. What reading a byte of `IN`, a group of `IN` and a logical group can do: each answers the bytes that stand
there, or the fault of the first cell without a value. -/

namespace Sys2Proof.Machine

/-! ## One byte -/

@[simp] theorem State.readIn_eq_ok {s : State} {a : Nat} {v : Byte} :
    s.readIn a = .ok v ↔ s.inp.read a = some v := by
  unfold State.readIn
  split <;> simp_all

@[simp] theorem State.readIn_eq_error {s : State} {a : Nat} {f : Fault} :
    s.readIn a = .error f ↔ s.inp.read a = none ∧ f = missingIn a := by
  unfold State.readIn
  cases s.inp.read a <;> simp [eq_comm]

/-- A read of `IN` looks at nothing but `IN`. -/
theorem State.readIn_congr {s t : State} (h : t.inp = s.inp) : t.readIn = s.readIn := by
  funext a
  simp [State.readIn, h]

/-- The two faults of a read of `IN`. -/
theorem missingIn_cases (a : Nat) :
    missingIn a = .inUnwritten a ∧ Config.fits (a + 1) = true ∨
      missingIn a = .inNoCell a ∧ Config.fits (a + 1) = false := by
  unfold missingIn
  cases Config.fits (a + 1) <;> simp

/-! ## A group, element by element -/

theorem collect7_eq_ok {f : Nat → Except Fault Byte} {w : G7} :
    collect7 f = .ok w ↔ ∀ i : Fin 7, f i.val = .ok (w.get i) := by
  constructor
  · intro h
    unfold collect7 at h
    simp only [bind, Except.bind, pure, Except.pure] at h
    repeat' split at h
    all_goals first
      | cases h
        done
      | skip
    cases h
    intro i
    fin_cases i <;> assumption
  · intro h
    obtain ⟨w0, w1, w2, w3, w4, w5, w6⟩ := w
    have h0 := h 0
    have h1 := h 1
    have h2 := h 2
    have h3 := h 3
    have h4 := h 4
    have h5 := h 5
    have h6 := h 6
    simp only [G7.get, Fin.isValue, Fin.coe_ofNat_eq_mod, Nat.zero_mod, Nat.reduceMod] at h0 h1 h2 h3 h4 h5 h6
    simp [collect7, bind, Except.bind, pure, Except.pure, h0, h1, h2, h3, h4, h5, h6]

theorem collect8_eq_ok {f : Nat → Except Fault Byte} {w : G8} :
    collect8 f = .ok w ↔ ∀ k : Fin 8, f k.val = .ok (w.get k) := by
  constructor
  · intro h
    unfold collect8 at h
    simp only [bind, Except.bind, pure, Except.pure] at h
    repeat' split at h
    all_goals first
      | cases h
        done
      | skip
    cases h
    intro i
    fin_cases i <;> assumption
  · intro h
    obtain ⟨w0, w1, w2, w3, w4, w5, w6, w7⟩ := w
    have h0 := h 0
    have h1 := h 1
    have h2 := h 2
    have h3 := h 3
    have h4 := h 4
    have h5 := h 5
    have h6 := h 6
    have h7 := h 7
    simp only [G8.get, Fin.isValue, Fin.coe_ofNat_eq_mod, Nat.zero_mod, Nat.reduceMod] at h0 h1 h2 h3 h4 h5 h6 h7
    simp [collect8, bind, Except.bind, pure, Except.pure, h0, h1, h2, h3, h4, h5, h6, h7]

/-- The first element that faults decides the fault. -/
theorem collect7_eq_error {f : Nat → Except Fault Byte} {e : Fault} (h : collect7 f = .error e) :
    ∃ a < 7, f a = .error e ∧ ∀ b < a, ∃ v, f b = .ok v := by
  unfold collect7 at h
  simp only [bind, Except.bind, pure, Except.pure] at h
  repeat' split at h
  all_goals first
    | (cases h; done)
    | skip
  all_goals cases h
  · exact ⟨0, by omega, by assumption, by omega⟩
  · exact ⟨1, by omega, by assumption, fun b hb => by interval_cases b; exact ⟨_, by assumption⟩⟩
  · exact ⟨2, by omega, by assumption, fun b hb => by interval_cases b <;> exact ⟨_, by assumption⟩⟩
  · exact ⟨3, by omega, by assumption, fun b hb => by interval_cases b <;> exact ⟨_, by assumption⟩⟩
  · exact ⟨4, by omega, by assumption, fun b hb => by interval_cases b <;> exact ⟨_, by assumption⟩⟩
  · exact ⟨5, by omega, by assumption, fun b hb => by interval_cases b <;> exact ⟨_, by assumption⟩⟩
  · exact ⟨6, by omega, by assumption, fun b hb => by interval_cases b <;> exact ⟨_, by assumption⟩⟩

/-- The first element that faults decides the fault. -/
theorem collect8_eq_error {f : Nat → Except Fault Byte} {e : Fault} (h : collect8 f = .error e) :
    ∃ a < 8, f a = .error e ∧ ∀ b < a, ∃ v, f b = .ok v := by
  unfold collect8 at h
  simp only [bind, Except.bind, pure, Except.pure] at h
  repeat' split at h
  all_goals first
    | (cases h; done)
    | skip
  all_goals cases h
  · exact ⟨0, by omega, by assumption, by omega⟩
  · exact ⟨1, by omega, by assumption, fun b hb => by interval_cases b; exact ⟨_, by assumption⟩⟩
  · exact ⟨2, by omega, by assumption, fun b hb => by interval_cases b <;> exact ⟨_, by assumption⟩⟩
  · exact ⟨3, by omega, by assumption, fun b hb => by interval_cases b <;> exact ⟨_, by assumption⟩⟩
  · exact ⟨4, by omega, by assumption, fun b hb => by interval_cases b <;> exact ⟨_, by assumption⟩⟩
  · exact ⟨5, by omega, by assumption, fun b hb => by interval_cases b <;> exact ⟨_, by assumption⟩⟩
  · exact ⟨6, by omega, by assumption, fun b hb => by interval_cases b <;> exact ⟨_, by assumption⟩⟩
  · exact ⟨7, by omega, by assumption, fun b hb => by interval_cases b <;> exact ⟨_, by assumption⟩⟩

/-! ## The operands of the commands -/

theorem State.operandG7_eq_ok {s : State} {w : G7} :
    s.operandG7 = .ok w ↔ ∀ i : Fin 7, s.inp.read i.val = some (w.get i) := by
  simp [State.operandG7, collect7_eq_ok]

theorem State.operandG7_eq_error {s : State} {f : Fault} (h : s.operandG7 = .error f) :
    ∃ a < 7, s.inp.read a = none ∧ f = missingIn a ∧ s.inputWritten a := by
  obtain ⟨a, ha, he, hb⟩ := collect7_eq_error h
  rw [State.readIn_eq_error] at he
  refine ⟨a, ha, he.1, he.2, fun b hlt => ?_⟩
  obtain ⟨v, hv⟩ := hb b hlt
  simp [State.readIn_eq_ok.1 hv]

theorem State.operandG8_eq_ok {s : State} {g : Nat} {y : G8} :
    s.operandG8 g = .ok y ↔ ∀ k : Fin 8, s.inp.read (8 * g + k.val) = some (y.get k) := by
  simp [State.operandG8, collect8_eq_ok]

theorem State.operandG8_eq_error {s : State} {g : Nat} {f : Fault} (h : s.operandG8 g = .error f) :
    ∃ k < 8, s.inp.read (8 * g + k) = none ∧ f = missingIn (8 * g + k) ∧
      ∀ b < k, (s.inp.read (8 * g + b)).isSome = true := by
  obtain ⟨a, ha, he, hb⟩ := collect8_eq_error h
  rw [State.readIn_eq_error] at he
  refine ⟨a, ha, he.1, he.2, fun b hlt => ?_⟩
  obtain ⟨v, hv⟩ := hb b hlt
  simp [State.readIn_eq_ok.1 hv]

/-- The operands look at nothing but `IN`. -/
theorem State.operandG7_congr {s t : State} (h : t.inp = s.inp) : t.operandG7 = s.operandG7 := by
  simp [State.operandG7, State.readIn_congr h]

theorem State.operandG8_congr {s t : State} (h : t.inp = s.inp) (g : Nat) : t.operandG8 g = s.operandG8 g := by
  simp [State.operandG8, State.readIn_congr h]

theorem State.logicalByte_congr {s t : State} (h : t.inp = s.inp) (L P j : Nat) :
    t.logicalByte L P j = s.logicalByte L P j := by
  simp [State.logicalByte, State.readIn_congr h]

theorem State.logicalGroup_congr {s t : State} (h : t.inp = s.inp) (L P g : Nat) :
    t.logicalGroup L P g = s.logicalGroup L P g := by
  simp [State.logicalGroup, State.logicalByte_congr h]

/-- A logical byte faults only where it is a byte of the input without a value. -/
theorem State.logicalByte_eq_error {s : State} {L P j : Nat} {f : Fault} (h : s.logicalByte L P j = .error f) :
    j ≠ 0 ∧ j ≤ L ∧ s.inp.read (j - 1) = none ∧ f = missingIn (j - 1) := by
  unfold State.logicalByte at h
  split at h
  · cases h
  · split at h
    · exact ⟨by omega, by omega, State.readIn_eq_error.1 h⟩
    · cases h

/-- A logical byte that is answered has its byte of the input. -/
theorem State.logicalByte_eq_ok {s : State} {L P j : Nat} {v : Byte} (h : s.logicalByte L P j = .ok v) :
    j ≠ 0 → j ≤ L → s.inp.read (j - 1) = some v := by
  intro h0 hL
  simpa [State.logicalByte, h0, hL] using h

/-- What `loadUnpacked` answers: the group of `IN` in `W8`, its Unpack in `W7`, nothing else changed. -/
theorem State.loadUnpacked_eq_ok {s t : State} {g : Nat} :
    s.loadUnpacked g = .ok t ↔ ∃ y, s.operandG8 g = .ok y ∧ t = { s with w8 := y, w7 := unpack y } := by
  unfold State.loadUnpacked
  cases h : s.operandG8 g with
  | error f => simp [bind, Except.bind]
  | ok y =>
    simp only [bind, Except.bind, pure, Except.pure, Except.ok.injEq]
    exact ⟨fun e => ⟨y, rfl, e.symm⟩, fun ⟨z, e, e2⟩ => by subst e; exact e2.symm⟩

theorem State.loadUnpacked_eq_error {s : State} {g : Nat} {f : Fault} :
    s.loadUnpacked g = .error f ↔ s.operandG8 g = .error f := by
  unfold State.loadUnpacked
  cases h : s.operandG8 g <;> simp [bind, Except.bind, pure, Except.pure]

end Sys2Proof.Machine
end

