-- ==== Sys2Proof/Laws/Stream.lean ====
section
/-! SUPPORT. What one group and a run of groups of ENCODE and of DECODE can do, said once: the next state where the groups
can be read, and the fault of the first that cannot. -/

namespace Sys2Proof.Machine

theorem State.writeOutList_eq (s : State) (a : Nat) (bs : List Byte) :
    s.writeOutList a bs = { s with out := (s.writeOutList a bs).out } := by
  induction bs generalizing s a with
  | nil => rfl
  | cons b bs ih =>
    show State.writeOutList (s.writeOut a b) (a + 1) bs = _
    rw [ih]
    rfl

/-- Writing on where the run in `OUT` ends, as a whole state. -/
theorem State.writeOutList_append (s : State) {bs : List Byte} {a : Nat} (cs : List Byte)
    (h : s.out = cellsFrom 0 bs) (ha : a = bs.length) :
    s.writeOutList a cs = { s with out := cellsFrom 0 (bs ++ cs) } := by
  subst ha
  rw [State.writeOutList_eq, State.writeOutList_out s bs cs h]

/-- Writing from index 0 on into an `OUT` without values. -/
theorem State.writeOutList_fresh (s : State) (bs : List Byte) (h : s.out = []) :
    s.writeOutList 0 bs = { s with out := cellsFrom 0 bs } :=
  State.writeOutList_append (bs := []) s bs h rfl

/-! ## ENCODE -/

theorem encodeGroup_eq_ok {L P g : Nat} {s t : State} :
    encodeGroup L P g s = .ok t ↔ ∃ w, s.logicalGroup L P g = .ok w ∧
      t = State.writeOutList { s with gi := g, w7 := w, w8 := pack w } (8 * g) (pack w).toList := by
  unfold encodeGroup
  have hc : (s.withGi g).logicalGroup L P g = s.logicalGroup L P g := State.logicalGroup_congr rfl L P g
  cases h : s.logicalGroup L P g with
  | error f => simp [hc, h, bind, Except.bind]
  | ok w =>
    simp only [hc, h, bind, Except.bind, pure, Except.pure, Except.ok.injEq]
    exact ⟨fun e => ⟨w, rfl, e.symm⟩, fun ⟨z, e, e2⟩ => by subst e; exact e2.symm⟩

theorem encodeGroup_eq_error {L P g : Nat} {s : State} {f : Fault} :
    encodeGroup L P g s = .error f ↔ s.logicalGroup L P g = .error f := by
  unfold encodeGroup
  have hc : (s.withGi g).logicalGroup L P g = s.logicalGroup L P g := State.logicalGroup_congr rfl L P g
  cases h : s.logicalGroup L P g <;> simp [hc, h, bind, Except.bind, pure, Except.pure]

/-- One group of ENCODE whose logical bytes can be read appends its eight bytes. -/
theorem encodeGroup_appends {L P g : Nat} {s : State} {w : G7} {X : List Byte} (hw : s.logicalGroup L P g = .ok w)
    (hX : s.out = cellsFrom 0 X) (hl : X.length = 8 * g) :
    encodeGroup L P g s =
      .ok { s with gi := g, w7 := w, w8 := pack w, out := cellsFrom 0 (X ++ (pack w).toList) } := by
  refine encodeGroup_eq_ok.2 ⟨w, hw, ?_⟩
  exact (State.writeOutList_append { s with gi := g, w7 := w, w8 := pack w } (pack w).toList hX hl.symm).symm

/-- A run of groups of ENCODE whose logical bytes can be read appends the Pack of each. -/
theorem encodeGroups_appends {L P : Nat} (f : Nat → G7) (n g : Nat) (s : State) (X : List Byte)
    (hf : ∀ j, g ≤ j → j < g + n → s.logicalGroup L P j = .ok (f j)) (hX : s.out = cellsFrom 0 X)
    (hl : X.length = 8 * g) :
    ∃ v7 v8 gi, encodeGroups L P n g s = .ok { s with
      w7 := v7, w8 := v8, gi := gi,
      out := cellsFrom 0 (X ++ (List.range' g n).flatMap fun j => (pack (f j)).toList) } := by
  induction n generalizing g s X with
  | zero => exact ⟨s.w7, s.w8, s.gi, by simp [encodeGroups, ← hX]⟩
  | succ n ih =>
    have h1 := encodeGroup_appends (hf g (by omega) (by omega)) hX hl
    obtain ⟨v7, v8, gi, h2⟩ := ih (g + 1)
      { s with gi := g, w7 := f g, w8 := pack (f g), out := cellsFrom 0 (X ++ (pack (f g)).toList) }
      (X ++ (pack (f g)).toList)
      (fun j hj hj2 => (State.logicalGroup_congr rfl L P j).trans (hf j (by omega) (by omega))) rfl
      (by simp [hl]; omega)
    refine ⟨v7, v8, gi, ?_⟩
    simp only [encodeGroups, h1, bind, Except.bind]
    rw [h2]
    simp [List.range'_succ]

/-- A run of groups of ENCODE that answers has read every logical group, and changes only the windows, `GI` and
`OUT`. -/
theorem encodeGroups_eq_ok {L P n g : Nat} {s t : State} (h : encodeGroups L P n g s = .ok t) :
    (∀ j, g ≤ j → j < g + n → ∃ w, s.logicalGroup L P j = .ok w) ∧
      t = { s with w7 := t.w7, w8 := t.w8, gi := t.gi, out := t.out } := by
  induction n generalizing g s with
  | zero =>
    obtain rfl : s = t := by simpa [encodeGroups] using h
    exact ⟨fun j h1 h2 => by omega, rfl⟩
  | succ n ih =>
    cases h1 : encodeGroup L P g s with
    | error f => simp [encodeGroups, h1, bind, Except.bind] at h
    | ok u =>
      have h2 : encodeGroups L P n (g + 1) u = .ok t := by
        simpa [encodeGroups, h1, bind, Except.bind] using h
      obtain ⟨w, hw, rfl⟩ := encodeGroup_eq_ok.1 h1
      obtain ⟨ih1, ih2⟩ := ih h2
      refine ⟨fun j hj hj2 => ?_, by rw [ih2]; simp⟩
      rcases Nat.eq_or_lt_of_le hj with rfl | hj
      · exact ⟨w, hw⟩
      · obtain ⟨v, hv⟩ := ih1 j hj (by omega)
        exact ⟨v, (State.logicalGroup_congr (by simp) L P j).symm.trans hv⟩

/-- A run of groups of ENCODE that faults does so at its first logical group that cannot be read. -/
theorem encodeGroups_eq_error {L P n g : Nat} {s : State} {f : Fault} (h : encodeGroups L P n g s = .error f) :
    ∃ j, g ≤ j ∧ j < g + n ∧ s.logicalGroup L P j = .error f ∧
      ∀ k, g ≤ k → k < j → ∃ w, s.logicalGroup L P k = .ok w := by
  induction n generalizing g s with
  | zero => simp [encodeGroups] at h
  | succ n ih =>
    cases h1 : encodeGroup L P g s with
    | error e =>
      obtain rfl : e = f := by simpa [encodeGroups, h1, bind, Except.bind] using h
      exact ⟨g, by omega, by omega, encodeGroup_eq_error.1 h1, fun k hk hk2 => by omega⟩
    | ok u =>
      have h2 : encodeGroups L P n (g + 1) u = .error f := by
        simpa [encodeGroups, h1, bind, Except.bind] using h
      obtain ⟨w, hw, rfl⟩ := encodeGroup_eq_ok.1 h1
      obtain ⟨j, hj, hj2, he, hb⟩ := ih h2
      refine ⟨j, by omega, by omega, (State.logicalGroup_congr (by simp) L P j).symm.trans he, fun k hk hk2 => ?_⟩
      rcases Nat.eq_or_lt_of_le hk with rfl | hk
      · exact ⟨w, hw⟩
      · obtain ⟨v, hv⟩ := hb k hk hk2
        exact ⟨v, (State.logicalGroup_congr (by simp) L P k).symm.trans hv⟩

/-! ## DECODE -/

theorem decodeGroup_eq_ok {g live : Nat} {s t : State} :
    decodeGroup g live s = .ok t ↔ ∃ y, s.operandG8 g = .ok y ∧
      t = State.writeOutList { s with gi := g, w8 := y, w7 := unpack y } (7 * g - 1)
        ((unpack y).toList.take live) := by
  unfold decodeGroup
  have hc : (s.withGi g).operandG8 g = s.operandG8 g := State.operandG8_congr rfl g
  cases h : s.operandG8 g with
  | error f =>
    have h2 : (s.withGi g).loadUnpacked g = .error f := State.loadUnpacked_eq_error.2 (hc.trans h)
    simp [h2, bind, Except.bind]
  | ok y =>
    have h2 : (s.withGi g).loadUnpacked g = .ok { s with gi := g, w8 := y, w7 := unpack y } :=
      State.loadUnpacked_eq_ok.2 ⟨y, hc.trans h, rfl⟩
    simp only [h2, bind, Except.bind, pure, Except.pure, Except.ok.injEq]
    exact ⟨fun e => ⟨y, rfl, e.symm⟩, fun ⟨z, e, e2⟩ => by subst e; exact e2.symm⟩

theorem decodeGroup_eq_error {g live : Nat} {s : State} {f : Fault} :
    decodeGroup g live s = .error f ↔ s.operandG8 g = .error f := by
  unfold decodeGroup
  have hc : (s.withGi g).operandG8 g = s.operandG8 g := State.operandG8_congr rfl g
  cases h : s.operandG8 g with
  | error e =>
    have h2 : (s.withGi g).loadUnpacked g = .error e := State.loadUnpacked_eq_error.2 (hc.trans h)
    simp [h2, bind, Except.bind]
  | ok y =>
    have h2 : (s.withGi g).loadUnpacked g = .ok { s with gi := g, w8 := y, w7 := unpack y } :=
      State.loadUnpacked_eq_ok.2 ⟨y, hc.trans h, rfl⟩
    simp [h2, bind, Except.bind, pure, Except.pure]

/-- One group of DECODE after the first, if it can be read, appends its live bytes. -/
theorem decodeGroup_appends {g live : Nat} {s : State} {y : G8} {X : List Byte} (hy : s.operandG8 g = .ok y)
    (hX : s.out = cellsFrom 0 X) (hl : X.length = 7 * g - 1) :
    decodeGroup g live s =
      .ok { s with gi := g, w8 := y, w7 := unpack y,
                   out := cellsFrom 0 (X ++ (unpack y).toList.take live) } := by
  refine decodeGroup_eq_ok.2 ⟨y, hy, ?_⟩
  exact (State.writeOutList_append { s with gi := g, w8 := y, w7 := unpack y } _ hX hl.symm).symm

/-- A run of groups of DECODE that can be read appends the Unpack of each. -/
theorem decodeMiddle_appends (f : Nat → G8) (n g : Nat) (s : State) (X : List Byte)
    (hf : ∀ j, g ≤ j → j < g + n → s.operandG8 j = .ok (f j)) (hX : s.out = cellsFrom 0 X)
    (hg : 1 ≤ g) (hl : X.length = 7 * g - 1) :
    ∃ v7 v8 gi, decodeMiddle n g s = .ok { s with
      w7 := v7, w8 := v8, gi := gi,
      out := cellsFrom 0 (X ++ (List.range' g n).flatMap fun j => (unpack (f j)).toList) } := by
  induction n generalizing g s X with
  | zero => exact ⟨s.w7, s.w8, s.gi, by simp [decodeMiddle, ← hX]⟩
  | succ n ih =>
    have h1 := decodeGroup_appends (live := 7) (hf g (by omega) (by omega)) hX hl
    have e : (unpack (f g)).toList.take 7 = (unpack (f g)).toList := rfl
    obtain ⟨v7, v8, gi, h2⟩ := ih (g + 1)
      { s with gi := g, w8 := f g, w7 := unpack (f g), out := cellsFrom 0 (X ++ (unpack (f g)).toList) }
      (X ++ (unpack (f g)).toList)
      (fun j hj hj2 => (State.operandG8_congr rfl j).trans (hf j (by omega) (by omega))) rfl (by omega)
      (by simp [hl]; omega)
    refine ⟨v7, v8, gi, ?_⟩
    simp only [decodeMiddle, h1, e, bind, Except.bind]
    rw [h2]
    simp [List.range'_succ]

/-- A run of groups of DECODE that answers has read every group, and changes only the windows, `GI` and `OUT`. -/
theorem decodeMiddle_eq_ok {n g : Nat} {s t : State} (h : decodeMiddle n g s = .ok t) :
    (∀ j, g ≤ j → j < g + n → ∃ y, s.operandG8 j = .ok y) ∧
      t = { s with w7 := t.w7, w8 := t.w8, gi := t.gi, out := t.out } := by
  induction n generalizing g s with
  | zero =>
    obtain rfl : s = t := by simpa [decodeMiddle] using h
    exact ⟨fun j h1 h2 => by omega, rfl⟩
  | succ n ih =>
    cases h1 : decodeGroup g 7 s with
    | error f => simp [decodeMiddle, h1, bind, Except.bind] at h
    | ok u =>
      have h2 : decodeMiddle n (g + 1) u = .ok t := by
        simpa [decodeMiddle, h1, bind, Except.bind] using h
      obtain ⟨y, hy, rfl⟩ := decodeGroup_eq_ok.1 h1
      obtain ⟨ih1, ih2⟩ := ih h2
      refine ⟨fun j hj hj2 => ?_, by rw [ih2]; simp⟩
      rcases Nat.eq_or_lt_of_le hj with rfl | hj
      · exact ⟨y, hy⟩
      · obtain ⟨v, hv⟩ := ih1 j hj (by omega)
        exact ⟨v, (State.operandG8_congr (by simp) j).symm.trans hv⟩

/-- A run of groups of DECODE that faults does so at its first group that cannot be read. -/
theorem decodeMiddle_eq_error {n g : Nat} {s : State} {f : Fault} (h : decodeMiddle n g s = .error f) :
    ∃ j, g ≤ j ∧ j < g + n ∧ s.operandG8 j = .error f ∧
      ∀ k, g ≤ k → k < j → ∃ y, s.operandG8 k = .ok y := by
  induction n generalizing g s with
  | zero => simp [decodeMiddle] at h
  | succ n ih =>
    cases h1 : decodeGroup g 7 s with
    | error e =>
      obtain rfl : e = f := by simpa [decodeMiddle, h1, bind, Except.bind] using h
      exact ⟨g, by omega, by omega, decodeGroup_eq_error.1 h1, fun k hk hk2 => by omega⟩
    | ok u =>
      have h2 : decodeMiddle n (g + 1) u = .error f := by
        simpa [decodeMiddle, h1, bind, Except.bind] using h
      obtain ⟨y, hy, rfl⟩ := decodeGroup_eq_ok.1 h1
      obtain ⟨j, hj, hj2, he, hb⟩ := ih h2
      refine ⟨j, by omega, by omega, (State.operandG8_congr (by simp) j).symm.trans he, fun k hk hk2 => ?_⟩
      rcases Nat.eq_or_lt_of_le hk with rfl | hk
      · exact ⟨y, hy⟩
      · obtain ⟨v, hv⟩ := hb k hk hk2
        exact ⟨v, (State.operandG8_congr (by simp) k).symm.trans hv⟩

end Sys2Proof.Machine
end

