-- ==== Sys2Proof/Laws/Commands.lean ====
section
/-! SUPPORT. What the shared parts of the commands and the two agents' moves can do, said once: the header checks of PADDEC
and DECODE, the admission of PADENC and ENCODE, the taking of a move, the decoding of a command word. -/

namespace Sys2Proof.Machine

/-! ## The answer of a command -/

@[simp] theorem conclude_ok (s : State) : conclude (.ok s) = .next s := rfl

@[simp] theorem conclude_error (f : Fault) : conclude (.error f) = .fault f := rfl

theorem conclude_eq_next {x : Except Fault State} {t : State} : conclude x = .next t ↔ x = .ok t := by
  cases x <;> simp [conclude]

theorem conclude_eq_fault {x : Except Fault State} {f : Fault} : conclude x = .fault f ↔ x = .error f := by
  cases x <;> simp [conclude]

theorem conclude_ne_refused {x : Except Fault State} {r : Refusal} : conclude x ≠ .refused r := by
  cases x <;> simp [conclude]

/-! ## The admission of PADENC and ENCODE -/

theorem admitEncoded_of_fits {s : State} (k : Outcome) (h : Config.fits (enclen s.len) = true) :
    admitEncoded s k = k := by
  simp [admitEncoded, h]

theorem admitEncoded_of_not_fits {s : State} (k : Outcome) (h : Config.fits (enclen s.len) = false) :
    admitEncoded s k = .refused (.lengthTooLong (enclen s.len)) := by
  simp [admitEncoded, h]

/-! ## The header checks of PADDEC and DECODE -/

section
variable {s : State} {k : State → Outcome}

theorem readHeader_of_empty (h : s.len = 0) : readHeader s k = .next (s.beginCommand.finish 0 0 0) := by
  simp [readHeader, h]

theorem readHeader_of_badLength (h : s.len % 8 ≠ 0) :
    readHeader s k = .next (s.beginCommand.raise (.invalidLength s.len)) := by
  have h0 : s.len ≠ 0 := fun e => h (by simp [e])
  simp [readHeader, h, h0]

theorem readHeader_of_group (h0 : s.len ≠ 0) (h8 : s.len % 8 = 0) {y : G8} (hy : s.operandG8 0 = .ok y) :
    readHeader s k =
      if 7 ≤ (unpack y).s0.toNat then
        .next (State.raise { s.beginCommand with w8 := y, w7 := unpack y } (.invalidPadding s.len))
      else k { s.beginCommand with w8 := y, w7 := unpack y } := by
  have hb : s.beginCommand.operandG8 0 = .ok y := (State.operandG8_congr rfl 0).trans hy
  have hl := State.loadUnpacked_eq_ok.2 ⟨y, hb, rfl⟩
  simp [readHeader, h0, h8, hl]

theorem readHeader_of_unreadable (h0 : s.len ≠ 0) (h8 : s.len % 8 = 0) {f : Fault}
    (hy : s.operandG8 0 = .error f) : readHeader s k = .fault f := by
  have hb : s.beginCommand.operandG8 0 = .error f := (State.operandG8_congr rfl 0).trans hy
  simp [readHeader, h0, h8, State.loadUnpacked_eq_error.2 hb]

/-- Every way the header checks can go, in the order of 60_exceptions.md R165. -/
theorem readHeader_cases (s : State) (k : State → Outcome) :
    (s.len = 0 ∧ readHeader s k = .next (s.beginCommand.finish 0 0 0)) ∨
    (s.len % 8 ≠ 0 ∧ readHeader s k = .next (s.beginCommand.raise (.invalidLength s.len))) ∨
    (s.len ≠ 0 ∧ s.len % 8 = 0 ∧ ∃ f, s.operandG8 0 = .error f ∧ readHeader s k = .fault f) ∨
    (s.len ≠ 0 ∧ s.len % 8 = 0 ∧ ∃ y, s.operandG8 0 = .ok y ∧ 7 ≤ (unpack y).s0.toNat ∧
      readHeader s k =
        .next (State.raise { s.beginCommand with w8 := y, w7 := unpack y } (.invalidPadding s.len))) ∨
    (s.len ≠ 0 ∧ s.len % 8 = 0 ∧ ∃ y, s.operandG8 0 = .ok y ∧ (unpack y).s0.toNat ≤ 6 ∧
      readHeader s k = k { s.beginCommand with w8 := y, w7 := unpack y }) := by
  by_cases h0 : s.len = 0
  · exact .inl ⟨h0, readHeader_of_empty h0⟩
  by_cases h8 : s.len % 8 = 0
  · cases hy : s.operandG8 0 with
    | error f => exact .inr (.inr (.inl ⟨h0, h8, f, rfl, readHeader_of_unreadable h0 h8 hy⟩))
    | ok y =>
      have h := readHeader_of_group (k := k) h0 h8 hy
      by_cases hp : 7 ≤ (unpack y).s0.toNat
      · rw [if_pos hp] at h
        exact .inr (.inr (.inr (.inl ⟨h0, h8, y, rfl, hp, h⟩)))
      · rw [if_neg hp] at h
        exact .inr (.inr (.inr (.inr ⟨h0, h8, y, rfl, by omega, h⟩)))
  · exact .inr (.inl ⟨h8, readHeader_of_badLength h8⟩)

end

/-! ## The moves -/

theorem takeMove_of_nil {s : State} (h : s.host.todo = []) : s.takeMove = (.core, s) := by
  simp [State.takeMove, h]

theorem takeMove_of_cons {s : State} {m : Move} {rest : List Move} (h : s.host.todo = m :: rest) :
    s.takeMove = (m, { s with host := { s.host with todo := rest } }) := by
  simp [State.takeMove, h]

/-- The moves only shorten the host agent's list. -/
theorem takeMove_snd (s : State) : s.takeMove.2 = { s with host := { s.host with todo := s.host.todo.tail } } := by
  cases h : s.host.todo with
  | nil =>
    rw [takeMove_of_nil h]
    obtain ⟨inp, out, w7, w8, gi, phase, cmd, len, code, errlen, pad, olen, rlen, ⟨todo, seen⟩, draws⟩ := s
    obtain rfl : todo = [] := h
    rfl
  | cons m rest => simp [takeMove_of_cons h]

theorem coreMove_of_idle {s : State} (h : s.phase = .idle) : coreMove s = .next s := by
  simp [coreMove, State.fetch, h]

theorem coreMove_of_busy {s : State} {i : Instr} (h : s.phase = .busy) (hi : decode s.cmd = .ok i) :
    coreMove s = exec i s := by
  simp [coreMove, State.fetch, h, hi]

theorem coreMove_of_reserved {s : State} {r : Reserved} (h : s.phase = .busy) (hi : decode s.cmd = .error r) :
    coreMove s = .refused (.reservedCommand s.cmd.toNat) := by
  simp [coreMove, State.fetch, h, hi]

/-- What a step can be: a move of the core or an action of the host, on the state with the list shortened. -/
theorem step_cases (s : State) :
    ∃ t, t = { s with host := { s.host with todo := s.host.todo.tail } } ∧
      (((s.host.todo = [] ∨ s.host.todo.head? = some .core) ∧ step s = coreMove t) ∨
        ∃ a, s.host.todo.head? = some (.act a) ∧ step s = hostAct a t) := by
  refine ⟨s.takeMove.2, takeMove_snd s, ?_⟩
  cases h : s.host.todo with
  | nil => exact .inl ⟨.inl rfl, by simp [step, takeMove_of_nil h]⟩
  | cons m rest =>
    cases m with
    | core => exact .inl ⟨.inr rfl, by simp [step, takeMove_of_cons h]⟩
    | act a => exact .inr ⟨a, rfl, by simp [step, takeMove_of_cons h]⟩

/-- A word that decodes may be written to `CMD` (10_state.md R17), and only such a word decodes. -/
theorem decode_eq_ok_iff_wordWellFormed (w : Byte) : (∃ i, decode w = .ok i) ↔ wordWellFormed w = true := by
  have key : ∀ w : Byte, (decode w).toOption.isSome = wordWellFormed w := by decide
  rw [← key w]
  cases decode w <;> simp [Except.toOption]

end Sys2Proof.Machine
end

