-- ==== Sys2Proof/Laws/PerInstr.lean ====
section
/-! SUPPORT. One family of statements about the instruction as syntax, one lemma per constructor. -/

namespace Sys2Proof.Laws

/-- The word of a command has bits 7:3 zero and its operation's number, one of 0 to 5, in bits 2:0 (30_encoding.md R70,
R74). -/
def WordFields.Statement (i : Instr) : Prop :=
  reservedField (encode i) = 0#5 ∧ opField (encode i) = opNumber i ∧ (opNumber i).toNat < 6

theorem WordFields.pack : WordFields.Statement .pack := by unfold WordFields.Statement; decide
theorem WordFields.unpack : WordFields.Statement .unpack := by unfold WordFields.Statement; decide
theorem WordFields.padenc : WordFields.Statement .padenc := by unfold WordFields.Statement; decide
theorem WordFields.paddec : WordFields.Statement .paddec := by unfold WordFields.Statement; decide
theorem WordFields.encode : WordFields.Statement .encode := by unfold WordFields.Statement; decide
theorem WordFields.decode : WordFields.Statement .decode := by unfold WordFields.Statement; decide

end Sys2Proof.Laws
end

