-- ==== Sys2Proof/Tests/Slice0.lean ====
section
/-! SUPPORT. The author's own tests. Every expected value is from spec/: the encoding table of 30_encoding.md R74, the
vectors of 95_test_vectors.md (V...), the worked examples of the rules. The theorems named `witness_...` show, for each
statement with hypotheses, a concrete state and operands that meet all of them. -/

namespace Sys2Proof.Tests

open Sys2Proof Sys2Proof.Machine

/-! ## Helpers -/

/-- The reset state with `B` in `IN` from index 0 on and `LEN` = `n`. -/
def given (n : Nat) (B : List Byte) : State := { State.reset with inp := cellsFrom 0 B, len := n }

/-- A state with the host's moves `ms` still to come. -/
def withMoves (s : State) (ms : List Move) : State := { s with host := { s.host with todo := ms } }

/-- The same state with the command `i` started. -/
def started (i : Instr) (s : State) : State := { s with cmd := encode i, phase := .busy }

/-- The results of an answer that is a next state. -/
def resultsOf : Outcome → Option Results
  | .next s => some s.results
  | .fault _ => none
  | .refused _ => none

/-- The refusal of an answer that is one. -/
def refusalOf : Outcome → Option Refusal
  | .next _ => none
  | .fault _ => none
  | .refused r => some r

/-- The fault of an answer that is one. -/
def faultOf : Outcome → Option Fault
  | .next _ => none
  | .fault f => some f
  | .refused _ => none

/-- What the host has seen in an answer that is a next state. -/
def seenOf : Outcome → Option (List Observation)
  | .next s => some s.host.seen
  | .fault _ => none
  | .refused _ => none

/-- V23's input, the example of 40_transpose.md R91. -/
def sevenBytes : List Byte := [0x12, 0xB4, 0x56, 0xF8, 0x9A, 0x3C, 0xDE]

/-- V43's input, the example of 40_transpose.md R93. -/
def eightBytes : List Byte := [0x2D, 0x12, 0x34, 0x56, 0x78, 0x1A, 0x3C, 0x5E]

/-- V123's input: three groups, P = 2. -/
def threeGroups : List Byte :=
  [0, 2, 1, 2, 3, 4, 5, 6, 0, 7, 8, 9, 10, 11, 12, 13, 0x60, 14, 15, 16, 17, 18, 0x55, 0x66]

/-! ## The checks of WellFormed, each with an ill-formed word it refuses -/

theorem test_op_six_is_not_assigned : wordOpAssigned 0x06 = false := by decide
theorem test_op_seven_is_not_assigned : wordOpAssigned 0x07 = false := by decide
theorem test_bit_three_is_reserved : wordReservedClear 0x08 = false := by decide
theorem test_bit_seven_is_reserved : wordReservedClear 0x80 = false := by decide
theorem test_ill_formed_words : [0x06, 0x07, 0x08, 0x0D, 0x80, 0xFF].all (fun w => !wordWellFormed w) = true := by decide
theorem test_every_instruction_is_well_formed :
    [Instr.pack, .unpack, .padenc, .paddec, .encode, .decode].all Instr.wellFormed = true := by decide

/-! ## Decoding: the words of 30_encoding.md R74, bit by bit (bits 7:3 reserved, bits 2:0 OP) -/

theorem test_decode_pack : decode (0b00000#5 ++ 0b000#3) = .ok .pack := by decide
theorem test_decode_unpack : decode (0b00000#5 ++ 0b001#3) = .ok .unpack := by decide
theorem test_decode_padenc : decode (0b00000#5 ++ 0b010#3) = .ok .padenc := by decide
theorem test_decode_paddec : decode (0b00000#5 ++ 0b011#3) = .ok .paddec := by decide
theorem test_decode_encode : decode (0b00000#5 ++ 0b100#3) = .ok .encode := by decide
theorem test_decode_decode : decode (0b00000#5 ++ 0b101#3) = .ok .decode := by decide
theorem test_decode_reserved_op : (decode 0b00000110#8).toOption = none ∧ (decode 0b00000111#8).toOption = none := by decide
theorem test_decode_reserved_bits : (decode 0b00001000#8).toOption = none ∧ (decode 0b10000101#8).toOption = none := by
  decide
theorem test_decode_table_words :
    [0, 1, 2, 3, 4, 5, 6, 8].map (decodeTableWord 8) =
      [some .pack, some .unpack, some .padenc, some .paddec, some .encode, some .decode, none, none] := by decide

/-! ## The commands, from the vectors of 95_test_vectors.md -/

/-- V23. -/
theorem test_pack_v23 : resultsOf (exec .pack (given 0 sevenBytes)) =
    some (.success 0 8 8 [0x2D, 0x12, 0x34, 0x56, 0x78, 0x1A, 0x3C, 0x5E]) := by rfl
/-- V17: the bit order of the H byte (90_conflicts.md C1). -/
theorem test_pack_v17 : pack ⟨0x80, 0x80, 0x80, 0, 0, 0, 0⟩ = ⟨0x70, 0, 0, 0, 0, 0, 0, 0⟩ := by decide
/-- V43. -/
theorem test_unpack_v43 : resultsOf (exec .unpack (given 0 eightBytes)) =
    some (.success 0 7 7 [0x12, 0xB4, 0x56, 0xF8, 0x9A, 0x3C, 0xDE]) := by rfl
/-- V48: bit 7 of a low-bits byte passes through. -/
theorem test_unpack_v48 : unpack ⟨0x00, 0x80, 0x81, 0, 0, 0, 0, 0xFF⟩ = ⟨0x80, 0x81, 0, 0, 0, 0, 0xFF⟩ := by decide
/-- V61. -/
theorem test_padenc_v61 : resultsOf (exec .padenc (given 1 [])) = some (.success 5 0 8 []) := by rfl
/-- V66. -/
theorem test_padenc_v66 : resultsOf (exec .padenc (given 6 [])) = some (.success 0 0 8 []) := by rfl
/-- V85. -/
theorem test_paddec_v85 : resultsOf (exec .paddec (given 24 [0, 2, 0, 0, 0, 0, 0, 0])) =
    some (.success 2 0 18 []) := by rfl
/-- V87: H bit 6 makes the prefix 0x80. -/
theorem test_paddec_v87 : resultsOf (exec .paddec (given 8 [0x40, 0, 0, 0, 0, 0, 0, 0])) =
    some (.failure (.invalidPadding 8)) := by rfl
/-- V3, the document's own. -/
theorem test_encode_v3 : resultsOf (exec .encode (given 1 [0])) =
    some (.success 5 8 8 [0, 5, 0, 0, 0, 0, 0, 0]) := by rfl
/-- V33. -/
theorem test_encode_v33 : encodeBytes [0xC3, 0xA9] = [0x30, 0x04, 0x43, 0x29, 0, 0, 0, 0] := by rfl
/-- V123: the first copy, one middle group, a last group with five live bytes. -/
theorem test_decode_v123 : resultsOf (exec .decode (given 24 threeGroups)) =
    some (.success 2 18 18 [1, 2, 3, 4, 5, 6, 7, 8, 9, 10, 11, 12, 13, 0x8E, 0x8F, 16, 17, 18]) := by rfl
/-- V129: bad in both ways, the length is reported; `IN` is not read. -/
theorem test_decode_v129 : resultsOf (exec .decode (given 12 [])) = some (.failure (.invalidLength 12)) := by rfl

/-! ## The functions of the document, from the vectors that need more than MAXLEN = 8 -/

/-- V2, the document's own. -/
theorem test_encode_hello : encodeBytes [72, 101, 108, 108, 111, 44, 32, 119, 111, 114, 108, 100, 33] =
    [0, 0, 72, 101, 108, 108, 111, 44, 0, 32, 119, 111, 114, 108, 100, 33] := by rfl
/-- V37. -/
theorem test_encode_v37 : encodeBytes [0xFF, 0xFF, 0xFF, 0xFF, 0xFF, 0xFF, 0xFF] =
    [0x3F, 0x06, 0x7F, 0x7F, 0x7F, 0x7F, 0x7F, 0x7F, 0x40, 0x7F, 0, 0, 0, 0, 0, 0] := by rfl
/-- The note after V130: the re-encoding of V119's output. -/
theorem test_reencode_v119 : encodeBytes [0x41, 0x42, 0x43] = [0x00, 3, 0x41, 0x42, 0x43, 0, 0, 0] := by rfl

/-! ## The host's side -/

/-- 70_reset_and_hazards.md R190: `CMD` reads as 0 after reset. -/
theorem test_read_cmd_after_reset : seenOf (hostAct (.readReg 0) State.reset) = some [.reg 0 0] := by rfl
/-- 10_state.md R19, R21: the fields of `STATUS` and `PAD` after V87's error and V85's success. -/
theorem test_read_status : seenOf (hostAct (.readReg 2) { State.reset with code := .invalidPadding }) = some [.reg 2 2] := by
  rfl
theorem test_read_pad : seenOf (hostAct (.readReg 4) { State.reset with pad := 6 }) = some [.reg 4 6] := by rfl
/-- U1, U2, U8 of 93_implementation_defined.md. -/
theorem test_reserved_command : refusalOf (hostAct (.writeReg 0 6) State.reset) = some (.reservedCommand 6) := by rfl
theorem test_read_out_after_reset : refusalOf (hostAct (.readOut 0) State.reset) = some (.outputNotValid 0) := by rfl
theorem test_register_seven : refusalOf (hostAct (.readReg 7) State.reset) = some (.noSuchRegister 7) := by rfl
/-- U3. -/
theorem test_unwritten_input : faultOf (exec .unpack (given 0 sevenBytes)) = some (.inUnwritten 7) := by rfl
/-- U5. -/
theorem test_command_while_busy : refusalOf (hostAct (.writeReg 0 4) (started .pack State.reset)) =
    some .commandWhileBusy := by rfl
/-- Table words run as the first command after reset: ENCODE with `LEN` = 0 ends as V30, PACK has no input to read. -/
theorem test_first_encode : resultsOf (step (State.reset.withFetchWord 8 4)) =
    some (.success 6 8 8 [0, 6, 0, 0, 0, 0, 0, 0]) := by rfl
theorem test_first_pack : faultOf (step (State.reset.withFetchWord 8 0)) = some (.inUnwritten 0) := by rfl

/-! ## Witnesses -/

/-- A reached-looking state with the invariant, no reset state: one output byte, the error registers clear. -/
def oneByteOut : State := { State.reset with out := cellsFrom 0 [0x41], olen := 1, rlen := 1, pad := 5 }

theorem oneByteOut_inv : oneByteOut.Inv where
  inWf := Memory.nil_wf
  outCells := rfl
  giFits := rfl
  lenFits := rfl
  errlenFits := rfl
  olenFits := rfl
  rlenFits := rfl
  cmdLegal := rfl
  padRange := by decide
  okErrlen _ := rfl
  lengthErrlen h := by cases h
  paddingErrlen h := by cases h
  errorZeroes h := absurd rfl h
  olenRlen := .inr rfl

/-- The state with the invariant in which the host moves next. -/
theorem withMoves_inv (ms : List Move) : (withMoves oneByteOut ms).Inv := { oneByteOut_inv with }

theorem holds_given (n : Nat) (B : List Byte) : (given n B).holdsInput B := fun a _ => read_cellsFrom_zero B a

/-- A group that DECODE accepts with P = 6, and one with P = 0. -/
def groupP6 : G8 := ⟨0x3F, 6, 1, 2, 3, 4, 5, 6⟩
def groupP0 : G8 := ⟨0x80, 0, 0x41, 0x42, 0x43, 9, 9, 9⟩
/-- A group with the smallest rejected prefix byte, and one with the greatest. -/
def groupP7 : G8 := ⟨0, 7, 0, 0, 0, 0, 0, 0⟩
def groupP255 : G8 := ⟨0x7F, 0x7F, 1, 2, 3, 4, 5, 6⟩

theorem witness_OpMapNamesExactlySixWords : 6 ≤ (0x06#8).toNat ∧ 6 ≤ (0xFF#8).toNat := by decide
theorem witness_DecodeAndEncodeAgree : Instr.encode.wellFormed = true ∧ decode 0x05#8 = .ok .decode := by decide
theorem witness_ReservedCommandWritesAreRefused : State.reset.phase = .idle ∧
    6 ≤ ((0x06#8).extractLsb' 0 3).toNat ∧ 6 ≤ ((0x07#8).extractLsb' 0 3).toNat ∧
    (0x08#8).extractLsb' 3 5 ≠ 0#5 ∧ (0x85#8).extractLsb' 3 5 ≠ 0#5 := by decide
theorem witness_StepRunsTheStartedCommand :
    (started .pack (given 0 sevenBytes)).host.todo = [] ∧ (started .pack (given 0 sevenBytes)).phase = .busy ∧
    decode (started .pack (given 0 sevenBytes)).cmd = .ok .pack ∧
    (withMoves (started .decode State.reset) [.core, .core]).host.todo.head? = some .core ∧
    (withMoves (started .decode State.reset) [.core, .core]).phase = .busy ∧
    decode (withMoves (started .decode State.reset) [.core, .core]).cmd = .ok .decode := by decide
theorem witness_StepPerformsTheHostsAction :
    (withMoves State.reset [.act (.writeIn 0 1), .core]).host.todo = .act (.writeIn 0 1) :: [.core] := rfl
theorem witness_IdleBlockWaitsForACommandWrite_core :
    State.reset.phase = .idle ∧ State.reset.host.todo = [] ∧
    (withMoves State.reset [.core]).phase = .idle ∧ (withMoves State.reset [.core]).host.todo.head? = some .core := by
  decide
theorem witness_IdleBlockWaitsForACommandWrite_start :
    (withMoves State.reset [.act (.writeReg 0 5)]).phase = .idle ∧
    step (withMoves State.reset [.act (.writeReg 0 5)]) = .next (started .decode State.reset) ∧
    (started .decode State.reset).phase = .busy := ⟨rfl, rfl, rfl⟩
theorem witness_FetchWordRunsNext : decode 0x03#8 = .ok .paddec := by decide
theorem witness_PackPlacesEveryBit : (0 : Nat) < 7 ∧ (6 : Nat) < 7 := by decide
theorem witness_UnpackRestoresEveryBit : (0 : Nat) < 7 ∧ (6 : Nat) < 7 := by decide
theorem witness_PackAfterUnpackCanonicalises :
    ∀ k : Fin 8, ((⟨0x7F, 0, 0x7F, 1, 2, 3, 4, 5⟩ : G8).get k).getLsbD 7 = false := by decide
theorem witness_PaddingRoundsUpToSevens : 6 ≤ 6 ∧ (0 + 1 + 6) % 7 = 0 ∧ 0 ≤ 6 ∧ (13 + 1 + 0) % 7 = 0 := by decide
theorem witness_LengthAndPaddingDetermineEachOther : 0 < 8 ∧ 8 % 8 = 0 ∧ 6 ≤ 6 ∧ 0 < 16 ∧ 16 % 8 = 0 ∧ 0 ≤ 6 := by
  decide
theorem witness_PackCommandPacksTheFirstSevenBytes :
    (given 0 sevenBytes).holdsInput (⟨0x12, 0xB4, 0x56, 0xF8, 0x9A, 0x3C, 0xDE⟩ : G7).toList := holds_given _ _
theorem witness_UnpackCommandUnpacksTheFirstEightBytes : (given 3 groupP255.toList).holdsInput groupP255.toList :=
  holds_given _ _
theorem witness_PadencCommandComputesTheSizes :
    Config.fits (enclen (given 0 []).len) = true ∧ Config.fits (enclen (given 6 []).len) = true := ⟨rfl, rfl⟩
/-- The four paths: length 0, a bad length, the greatest and the smallest rejected prefix, the greatest accepted one. -/
theorem witness_PaddecCommandChecksAndSizes :
    ((given 0 []).len ≠ 0 → (given 0 []).len % 8 = 0 → (given 0 []).holdsInput groupP6.toList) ∧
    ((given 7 []).len ≠ 0 → (given 7 []).len % 8 = 0 → (given 7 []).holdsInput groupP6.toList) ∧
    ((given 8 groupP7.toList).holdsInput groupP7.toList ∧ (unpack groupP7).s0.toNat = 7) ∧
    ((given 8 groupP255.toList).holdsInput groupP255.toList ∧ (unpack groupP255).s0.toNat = 255) ∧
    ((given 16 groupP6.toList).holdsInput groupP6.toList ∧ (unpack groupP6).s0.toNat = 6) :=
  ⟨fun h => absurd rfl h, fun _ h => absurd h (by decide), ⟨holds_given _ _, rfl⟩, ⟨holds_given _ _, rfl⟩,
    ⟨holds_given _ _, rfl⟩⟩
theorem witness_EncodeCommandComputesEncode :
    ([] : List Byte).length = (given 0 []).len ∧ (given 0 []).holdsInput [] ∧
    Config.fits (enclen (given 0 []).len) = true ∧
    ([1, 2, 3, 4, 5, 6] : List Byte).length = (given 6 [1, 2, 3, 4, 5, 6]).len ∧
    (given 6 [1, 2, 3, 4, 5, 6]).holdsInput [1, 2, 3, 4, 5, 6] ∧
    Config.fits (enclen (given 6 [1, 2, 3, 4, 5, 6]).len) = true :=
  ⟨rfl, holds_given _ _, rfl, rfl, holds_given _ _, rfl⟩
theorem witness_DecodeCommandComputesDecode_ok :
    threeGroups.length = (given 24 threeGroups).len ∧ (given 24 threeGroups).len % 8 = 0 ∧
    (given 24 threeGroups).holdsInput threeGroups ∧ (decodeText threeGroups).toOption.isSome = true :=
  ⟨rfl, rfl, holds_given _ _, rfl⟩
theorem witness_DecodeCommandComputesDecode_error :
    (sevenBytes.length = (given 7 []).len ∧ ((given 7 []).len % 8 = 0 → (given 7 []).holdsInput sevenBytes) ∧
      decodeText sevenBytes = .error (.invalidLength 7)) ∧
    (groupP7.toList.length = (given 8 groupP7.toList).len ∧ (given 8 groupP7.toList).holdsInput groupP7.toList ∧
      decodeText groupP7.toList = .error (.invalidPadding 8)) :=
  ⟨⟨rfl, fun h => absurd h (by decide), rfl⟩, rfl, holds_given _ _, rfl⟩
theorem witness_DecodeWritesTheTrimmedStream : threeGroups.length = (given 24 threeGroups).len ∧
    (given 24 threeGroups).len ≠ 0 ∧ (given 24 threeGroups).holdsInput threeGroups ∧
    ∃ t, exec .decode (given 24 threeGroups) = .next t ∧ t.code = .ok :=
  ⟨rfl, by decide, holds_given _ _, _, rfl, rfl⟩
theorem witness_DecodersRejectABadLength : (given 1 []).len % 8 ≠ 0 ∧ (given 7 []).len % 8 ≠ 0 := by decide
theorem witness_DecodersRejectABadPaddingCount :
    (given 8 groupP7.toList).len ≠ 0 ∧ (given 8 groupP7.toList).len % 8 = 0 ∧
    (given 8 groupP7.toList).holdsInput groupP7.toList ∧ 7 ≤ (unpack groupP7).s0.toNat :=
  ⟨by decide, by decide, holds_given _ _, by decide⟩
theorem witness_ErrorsFollowTheOrderOfTheChecks :
    (∃ t, exec .paddec (given 12 []) = .next t ∧ t.code = .invalidLength) ∧
    (∃ t, exec .decode (given 8 groupP7.toList) = .next t ∧ t.code = .invalidPadding) ∧
    ∃ t, exec .decode (given 8 groupP6.toList) = .next t ∧ t.code = .ok :=
  ⟨⟨_, rfl, rfl⟩, ⟨_, rfl, rfl⟩, _, rfl, rfl⟩
theorem witness_OtherCommandsNeverFail :
    (∃ t, exec .pack (given 0 sevenBytes) = .next t) ∧ (∃ t, exec .unpack (given 0 eightBytes) = .next t) ∧
    (∃ t, exec .padenc (given 6 []) = .next t) ∧ ∃ t, exec .encode (given 0 []) = .next t :=
  ⟨⟨_, rfl⟩, ⟨_, rfl⟩, ⟨_, rfl⟩, _, rfl⟩
theorem witness_CommandsChangeNothingElse :
    (∃ t, exec .padenc (given 0 []) = .next t) ∧ (∃ t, exec .paddec (given 7 []) = .next t) ∧
    ∃ t, exec .decode (given 24 threeGroups) = .next t := ⟨⟨_, rfl⟩, ⟨_, rfl⟩, _, rfl⟩
/-- The second state differs in the results, `OUT`, the windows, and (for PACK) in `LEN` and in a cell that is not read. -/
theorem witness_ResultsDependOnlyOnTheInputs :
    (∀ a < inputBound .pack (given 0 sevenBytes),
      ({ given 5 (sevenBytes ++ [1]) with out := cellsFrom 0 [9], code := .invalidLength } : State).inp.read a =
        (given 0 sevenBytes).inp.read a) ∧ (∃ t, exec .pack (given 0 sevenBytes) = .next t) ∧
    ({ given 8 groupP6.toList with errlen := 3, gi := 7 } : State).len = (given 8 groupP6.toList).len ∧
    (∀ a < inputBound .decode (given 8 groupP6.toList),
      ({ given 8 groupP6.toList with errlen := 3, gi := 7 } : State).inp.read a =
        (given 8 groupP6.toList).inp.read a) ∧ ∃ t, exec .decode (given 8 groupP6.toList) = .next t :=
  ⟨by decide, ⟨_, rfl⟩, rfl, fun _ _ => rfl, _, rfl⟩
theorem witness_CommandsEndExactlyWhenReady :
    admitted .encode (given 6 [1, 2, 3, 4, 5, 6]) = true ∧ inputReady .encode (given 6 [1, 2, 3, 4, 5, 6]) :=
  ⟨rfl, by unfold inputReady State.inputWritten; decide⟩
theorem witness_ReadsOfUnwrittenInputFault :
    admitted .pack State.reset = true ∧ ¬ inputReady .pack State.reset ∧
    exec .pack State.reset = .fault (.inUnwritten 0) ∧ exec .unpack (given 0 sevenBytes) = .fault (.inUnwritten 7) :=
  ⟨rfl, fun h => absurd (h 0 (by decide)) (by decide), rfl, rfl⟩
theorem witness_EveryCommandLeavesItsRowOfTheTable :
    (given 8 groupP6.toList).holdsInput groupP6.toList ∧
    inputBound .pack (given 8 groupP6.toList) ≤ groupP6.toList.length ∧
    inputBound .unpack (given 8 groupP6.toList) ≤ groupP6.toList.length ∧
    inputBound .paddec (given 8 groupP6.toList) ≤ groupP6.toList.length ∧
    inputBound .decode (given 8 groupP6.toList) ≤ groupP6.toList.length ∧
    (given 6 groupP6.toList).holdsInput groupP6.toList ∧
    inputBound .encode (given 6 groupP6.toList) ≤ groupP6.toList.length ∧
    admitted .encode (given 6 groupP6.toList) = true ∧ admitted .padenc (given 6 groupP6.toList) = true :=
  ⟨holds_given _ _, by decide, by decide, by decide, by decide, holds_given _ _, by decide, rfl, rfl⟩
theorem witness_SizingCommandsPredictTheWork :
    (∃ t u, exec .padenc (given 6 sevenBytes) = .next t ∧ exec .encode (given 6 sevenBytes) = .next u) ∧
    (∃ t u, exec .paddec (given 24 threeGroups) = .next t ∧ exec .decode (given 24 threeGroups) = .next u) ∧
    ∃ t u, exec .paddec (given 8 groupP7.toList) = .next t ∧ exec .decode (given 8 groupP7.toList) = .next u :=
  ⟨⟨_, _, rfl, rfl⟩, ⟨_, _, rfl, rfl⟩, _, _, rfl, rfl⟩
theorem witness_StepKeepsTheInvariant_host :
    (withMoves oneByteOut [.act (.writeIn 3 0xAA)]).Inv ∧
    ∃ t, step (withMoves oneByteOut [.act (.writeIn 3 0xAA)]) = .next t := ⟨withMoves_inv _, _, rfl⟩
theorem witness_StepKeepsTheInvariant_core :
    (started .padenc oneByteOut).Inv ∧ ∃ t, step (started .padenc oneByteOut) = .next t :=
  ⟨{ oneByteOut_inv with cmdLegal := rfl }, _, rfl⟩
theorem witness_DecodeCommandUndoesEncodeCommand :
    ∃ t, exec .encode (given 2 [0xC3, 0xA9]) = .next t ∧
      (given 8 [0x30, 0x04, 0x43, 0x29, 0, 0, 0, 0]).len = t.olen ∧
      ∀ a < t.olen, (given 8 [0x30, 0x04, 0x43, 0x29, 0, 0, 0, 0]).inp.read a = t.out.read a :=
  ⟨_, rfl, rfl, by decide⟩
theorem witness_EncodedTextIsCleanAndSized : (0x20#8) ∈ encodeBytes [0xFF] := by decide
theorem witness_ReencodingRestoresExactlyCanonicalTexts :
    groupP6.toList ≠ [] ∧ decodeText groupP6.toList = .ok [] ∧
    ([0, 0, 1, 2, 3, 4, 5, 6] : List Byte) ≠ [] ∧ decodeText [0, 0, 1, 2, 3, 4, 5, 6] = .ok [1, 2, 3, 4, 5, 6] :=
  ⟨by decide, rfl, by decide, rfl⟩
theorem witness_OnlyTheFirstGroupIsInspected :
    sevenBytes.length % 8 ≠ 0 ∧
    (groupP7.toList ≠ [] ∧ groupP7.toList.length % 8 = 0 ∧ 7 ≤ (prefixByte groupP7.toList).toNat) ∧
    groupP7.toList.length % 8 = 0 ∧ (unpack groupP6).s0.toNat ≤ 6 := by decide
theorem witness_EmptyInputAndEmptyText : (given 0 []).len = 0 ∧ (given 8 groupP6.toList).len = 8 ∧
    (given 8 groupP6.toList).holdsInput groupP6.toList ∧ (unpack groupP6).s0 = 6 :=
  ⟨rfl, rfl, holds_given _ _, by decide⟩
theorem witness_OneGroupTextsAreTruncated :
    (given 8 groupP6.toList).len = 8 ∧ (given 8 groupP6.toList).holdsInput groupP6.toList ∧
    (unpack groupP6).s0.toNat = 6 ∧ (given 8 groupP0.toList).len = 8 ∧
    (given 8 groupP0.toList).holdsInput groupP0.toList ∧ (unpack groupP0).s0.toNat = 0 :=
  ⟨rfl, holds_given _ _, by decide, rfl, holds_given _ _, by decide⟩
/-- Two inputs that agree on the stretch of group 1 (input bytes 6 to 12) and differ elsewhere. -/
theorem witness_EncodedGroupsDependOnTheirStretch :
    ([1, 1, 1, 1, 1, 1, 7, 8, 9] : List Byte).length = ([2, 2, 2, 2, 2, 2, 7, 8, 9] : List Byte).length ∧
    (0 < 8 ∧ 7 < 8 ∧ 0 < 7 ∧ 6 < 7) ∧ ∀ j, 7 * 1 ≤ j + 1 → j + 1 < 7 * 1 + 7 →
      ([1, 1, 1, 1, 1, 1, 7, 8, 9] : List Byte)[j]? = ([2, 2, 2, 2, 2, 2, 7, 8, 9] : List Byte)[j]? :=
  ⟨rfl, by decide, fun j h1 h2 => by
    have h3 : 6 ≤ j := by omega
    have h4 : j ≤ 12 := by omega
    interval_cases j <;> rfl⟩
theorem witness_LegalCommandWriteStarts : oneByteOut.phase = .idle := rfl
theorem witness_LengthWriteStoresWhatFits : oneByteOut.phase = .idle ∧ Config.fits 8 = true := ⟨rfl, rfl⟩
theorem witness_ReadOnlyRegistersIgnoreWrites : 2 ≤ 2 ∧ 2 ≤ 6 ∧ 6 ≤ 6 ∧ 7 ≤ 7 := by decide
theorem witness_RegisterReadsAnswerWhileIdle : oneByteOut.phase = .idle := rfl
theorem witness_StatusReadWhileBusyShowsBusy : (started .encode oneByteOut).phase = .busy := rfl
theorem witness_InputWriteIsReadBack : oneByteOut.phase = .idle ∧ Config.fits (0 + 1) = true ∧
    Config.fits (7 + 1) = true ∧ (1 : Nat) ≠ 0 ∧ oneByteOut.inp.wf := ⟨rfl, rfl, rfl, by decide, Memory.nil_wf⟩
/-- Both clauses, at the boundary: the last byte below `OLEN`, and `OLEN` itself. -/
theorem witness_OutputReadAnswersBelowOlen : oneByteOut.Inv ∧ oneByteOut.phase = .idle ∧ 0 < oneByteOut.olen ∧
    oneByteOut.olen ≤ 1 := ⟨oneByteOut_inv, rfl, by decide, by decide⟩
theorem witness_HazardsWhileBusyAreRefused : (started .decode oneByteOut).phase = .busy := rfl
theorem witness_HostActionsKeepTheResults :
    (∃ t, hostAct (.writeReg 0 4) oneByteOut = .next t) ∧ (∃ t, hostAct (.readOut 0) oneByteOut = .next t) ∧
    HostAction.writeReg 0 4 ≠ .reset ∧ HostAction.readOut 0 ≠ .reset := ⟨⟨_, rfl⟩, ⟨_, rfl⟩, by decide, by decide⟩
theorem witness_HostActsExactlyAsItMay : oneByteOut.Inv ∧ hostMay (.readOut 0) oneByteOut ∧
    ¬ hostMay (.readOut 1) oneByteOut := ⟨oneByteOut_inv, ⟨rfl, by decide⟩, fun h => absurd h.2 (by decide)⟩
theorem witness_EncodeCallDeliversTheEncoding :
    (withMoves oneByteOut (callMoves (.encode [0xC3, 0xA9]))).phase = .idle ∧
    (withMoves oneByteOut (callMoves (.encode [0xC3, 0xA9]))).host.todo = callMoves (.encode [0xC3, 0xA9]) ∧
    Config.fits (enclen ([0xC3, 0xA9] : List Byte).length) = true := ⟨rfl, rfl, rfl⟩

end Sys2Proof.Tests
end

/-! # The input a command reads, as a list of bytes

`State.holdsInput` says which bytes `IN` holds from index 0 on. These lemmas turn it into what the reads of a group
answer, so that a command's proof speaks of lists and never of cells. -/

namespace Sys2Proof.Machine

/-! ## The bytes `IN` holds -/

theorem State.holdsInput.read_eq {s : State} {B : List Byte} (h : s.holdsInput B) {a : Nat} (ha : a < B.length) :
    s.inp.read a = some (B.getD a 0) := by
  rw [h a ha, List.getElem?_eq_getElem ha, List.getD_eq_getElem _ _ ha]

theorem State.holdsInput.take {s : State} {B : List Byte} (h : s.holdsInput B) (n : Nat) :
    s.holdsInput (B.take n) := by
  intro a ha
  rw [List.length_take] at ha
  rw [h a (by omega), List.getElem?_take_of_lt (by omega)]

/-- The bytes stand in every state that agrees on the cells they take. -/
theorem State.holdsInput.congr {s s' : State} {B : List Byte} (h : s.holdsInput B)
    (hs : ∀ a < B.length, s'.inp.read a = s.inp.read a) : s'.holdsInput B :=
  fun a ha => (hs a ha).trans (h a ha)

/-- Cells that all hold a value hold a list of bytes. -/
theorem State.inputWritten.exists_bytes {s : State} {n : Nat} (h : s.inputWritten n) :
    ∃ B : List Byte, B.length = n ∧ s.holdsInput B := by
  refine ⟨(List.range n).map fun a => (s.inp.read a).getD 0, by simp, fun a ha => ?_⟩
  have hn : a < n := by simpa using ha
  obtain ⟨v, hv⟩ := Option.isSome_iff_exists.1 (h a hn)
  simp [hn, hv]

/-! ## The groups of a list -/

theorem group7At_get (l : List Byte) (a : Nat) (i : Fin 7) : (group7At l a).get i = l.getD (a + i.val) 0 := by
  simp [group7At]

theorem group8At_get (l : List Byte) (a : Nat) (k : Fin 8) : (group8At l a).get k = l.getD (a + k.val) 0 := by
  simp [group8At]

/-- A group that ends within the first `n` bytes is a group of those bytes. -/
theorem group8At_take {l : List Byte} {a n : Nat} (h : a + 8 ≤ n) : group8At (l.take n) a = group8At l a := by
  refine G8.ext_get fun k => ?_
  have hk : a + k.val < n := by omega
  rw [group8At_get, group8At_get, List.getD_eq_getElem?_getD, List.getElem?_take_of_lt hk,
    List.getD_eq_getElem?_getD]

/-! ## The reads of the commands -/

section
variable {s : State} {B : List Byte}

theorem State.holdsInput.operandG7 (h : s.holdsInput B) (hl : 7 ≤ B.length) :
    s.operandG7 = .ok (group7At B 0) := by
  refine State.operandG7_eq_ok.2 fun i => ?_
  rw [group7At_get, Nat.zero_add, h.read_eq (by omega)]

theorem State.holdsInput.operandG8 (h : s.holdsInput B) {g : Nat} (hl : 8 * g + 8 ≤ B.length) :
    s.operandG8 g = .ok (group8At B (8 * g)) := by
  refine State.operandG8_eq_ok.2 fun k => ?_
  rw [group8At_get, h.read_eq (by omega)]

/-- The three stretches of the logical stream (30_encoding.md R66): padding count, input, filler. -/
theorem logical_getD (B : List Byte) (j : Nat) : (logical B).getD j 0 =
    if j = 0 then BitVec.ofNat 8 (pad B.length) else if j ≤ B.length then B.getD (j - 1) 0 else 0 := by
  cases j with
  | zero => rfl
  | succ j =>
    simp only [logical, List.getD_eq_getElem?_getD, List.getElem?_cons_succ, Nat.add_one_sub_one]
    by_cases hj : j < B.length
    · rw [List.getElem?_append_left hj]
      simp [hj, Nat.succ_le_of_lt hj]
    · rw [List.getElem?_append_right (by omega)]
      by_cases hp : j - B.length < pad B.length <;> simp [hj, hp]

theorem State.holdsInput.logicalByte (h : s.holdsInput B) (j : Nat) :
    s.logicalByte B.length (Machine.pad B.length) j = .ok ((logical B).getD j 0) := by
  rw [logical_getD]
  unfold State.logicalByte
  split
  · rfl
  · split
    · exact State.readIn_eq_ok.2 (h.read_eq (by omega))
    · rfl

theorem State.holdsInput.logicalGroup (h : s.holdsInput B) (g : Nat) :
    s.logicalGroup B.length (Machine.pad B.length) g = .ok (group7At (logical B) (7 * g)) := by
  refine collect7_eq_ok.2 fun i => ?_
  rw [h.logicalByte, group7At_get]

end

/-! ## What a read that answers says of `IN` -/

theorem State.operandG7_inputWritten {s : State} {w : G7} (h : s.operandG7 = .ok w) : s.inputWritten 7 := by
  intro a ha
  simp [State.operandG7_eq_ok.1 h ⟨a, ha⟩]

/-- Where the first `n` groups of `IN` can be read, `8 * n` cells have a value. -/
theorem State.inputWritten_of_groups {s : State} {n : Nat} (h : ∀ g < n, ∃ y, s.operandG8 g = .ok y) :
    s.inputWritten (8 * n) := by
  intro a ha
  obtain ⟨y, hy⟩ := h (a / 8) (by omega)
  have hr := State.operandG8_eq_ok.1 hy ⟨a % 8, by omega⟩
  rw [show 8 * (a / 8) + a % 8 = a by omega] at hr
  simp [hr]

/-- Where the logical groups that hold the `L` input bytes can be read, those bytes have a value. -/
theorem State.inputWritten_of_logicalGroups {s : State} {L P n : Nat} (hn : L + 1 ≤ 7 * n)
    (h : ∀ g < n, ∃ w, s.logicalGroup L P g = .ok w) : s.inputWritten L := by
  intro a ha
  obtain ⟨w, hw⟩ := h ((a + 1) / 7) (by omega)
  have hb := collect7_eq_ok.1 hw ⟨(a + 1) % 7, by omega⟩
  rw [show 7 * ((a + 1) / 7) + (a + 1) % 7 = a + 1 by omega] at hb
  have hr : s.inp.read a = _ := State.logicalByte_eq_ok hb (by omega) (by omega)
  simp [hr]

end Sys2Proof.Machine

/-! # What every command does, said once

`Ending i s t B`: the state `t` is one in which the command `i`, started in `s` with the bytes `B` in `IN`, may end. It
gives the row of the table of results (10_state.md R25) and everything the command leaves unchanged. A command answers a
next state exactly where `IN` holds the bytes it reads, and then it has an `Ending`. -/

namespace Sys2Proof.Machine

/-! ## The end of a command -/

/-- The end of a command: the results `r`, the windows and `GI` as given, the block IDLE, all else as it was. -/
def State.ended (s : State) (v7 : G7) (v8 : G8) (g : Nat) (r : Results) : State :=
  { s with
    w7 := v7, w8 := v8, gi := g, out := r.out, code := r.code, errlen := r.errlen, pad := r.pad, olen := r.olen,
    rlen := r.rlen, phase := .idle }

@[simp] theorem State.ended_results (s : State) (v7 : G7) (v8 : G8) (g : Nat) (r : Results) :
    (s.ended v7 v8 g r).results = r := rfl

/-- Between its start in `s` and its end, a command has changed the windows, `GI` and `OUT` only; `OUT` holds `C`. -/
structure State.Wrote (s u : State) (C : List Byte) : Prop where
  whole : u = { s with w7 := u.w7, w8 := u.w8, gi := u.gi, out := cellsFrom 0 C }

section
variable {s u v : State} {C D : List Byte}

theorem State.Wrote.inp_eq (h : s.Wrote u C) : u.inp = s.inp := by rw [h.whole]

theorem State.Wrote.len_eq (h : s.Wrote u C) : u.len = s.len := by rw [h.whole]

theorem State.Wrote.out_eq (h : s.Wrote u C) : u.out = cellsFrom 0 C := by rw [h.whole]

theorem State.Wrote.trans (h : s.Wrote u C) (h' : u.Wrote v D) : s.Wrote v D := by
  refine ⟨h'.whole.trans ?_⟩
  rw [h.whole]

theorem State.Wrote.withGi (h : s.Wrote u C) (g : Nat) : s.Wrote (u.withGi g) C := by
  refine ⟨?_⟩
  rw [h.whole]
  rfl

/-- A normal end is an end with the row of a success. -/
theorem State.Wrote.finish_eq (h : s.Wrote u C) (p m n : Nat) :
    u.finish (BitVec.ofNat 3 p) m n = s.ended u.w7 u.w8 u.gi (.success p m n C) := by
  rw [h.whole]
  rfl

/-- An error is an end with the row of a failure. -/
theorem State.Wrote.raise_eq (h : s.Wrote u []) (e : DecodeError) :
    u.raise e = s.ended u.w7 u.w8 u.gi (.failure e) := by
  rw [h.whole]
  rfl

end

/-- What command `i`, with `B` in `IN`, makes of the state `s`. -/
structure Ending (i : Instr) (s t : State) (B : List Byte) : Prop where
  whole : t = s.ended t.w7 t.w8 t.gi (tableResults i s.len B)
  windows : i = .padenc → t.w7 = s.w7 ∧ t.w8 = s.w8
  groupIndex : t.gi = 0 ∨ i = .encode ∧ 8 * t.gi = enclen s.len ∨ i = .decode ∧ 8 * t.gi = s.len

theorem Ending.results_eq {i : Instr} {s t : State} {B : List Byte} (h : Ending i s t B) :
    t.results = tableResults i s.len B := by
  rw [h.whole, State.ended_results]

/-! ## PACK, UNPACK and PADENC -/

section
variable {s : State} {B : List Byte}

theorem execPack_ending (hB : s.holdsInput B) (hl : 7 ≤ B.length) :
    ∃ t, execPack s = .next t ∧ Ending .pack s t B := by
  have hop : s.beginCommand.operandG7 = .ok (group7At B 0) :=
    (State.operandG7_congr rfl).trans (hB.operandG7 hl)
  have hw := State.writeOutList_fresh (s.beginCommand.loadPacked (group7At B 0)) (pack (group7At B 0)).toList rfl
  refine ⟨_, by simp [execPack, hop, hw, bind, Except.bind, pure, Except.pure]; rfl, ?_⟩
  exact ⟨rfl, nofun, .inl rfl⟩

theorem execUnpack_ending (hB : s.holdsInput B) (hl : 8 ≤ B.length) :
    ∃ t, execUnpack s = .next t ∧ Ending .unpack s t B := by
  have hop : s.beginCommand.operandG8 0 = .ok (group8At B 0) :=
    (State.operandG8_congr rfl 0).trans (hB.operandG8 (g := 0) (by omega))
  have hld := State.loadUnpacked_eq_ok.2 ⟨_, hop, rfl⟩
  have hw := State.writeOutList_fresh { s.beginCommand with w8 := group8At B 0, w7 := unpack (group8At B 0) }
    (unpack (group8At B 0)).toList rfl
  refine ⟨_, by simp [execUnpack, hld, bind, Except.bind, pure, Except.pure]; rfl, ?_⟩
  exact ⟨rfl, nofun, .inl rfl⟩

theorem execPadenc_ending (ha : Config.fits (enclen s.len) = true) :
    ∃ t, execPadenc s = .next t ∧ Ending .padenc s t B :=
  ⟨_, admitEncoded_of_fits _ ha, rfl, fun _ => ⟨rfl, rfl⟩, .inl rfl⟩

/-! ## PADDEC -/

/-- PADDEC and DECODE share the header checks and the rows of the table these decide; a text whose padding count is
accepted is left to the rest `k` of the command, with the first group in the windows. -/
theorem readHeader_ending {i : Instr} {k : State → Outcome} (hi : i = .paddec ∨ i = .decode) (hB : s.holdsInput B)
    (hl : s.len ≠ 0 → s.len % 8 = 0 → 8 ≤ B.length)
    (hk : ∀ u, s.len ≠ 0 → s.len % 8 = 0 → (prefixByte B).toNat ≤ 6 → s.Wrote u [] →
      u.w7 = unpack (group8At B 0) → u.gi = 0 → ∃ t, k u = .next t ∧ Ending i s t B) :
    ∃ t, readHeader s k = .next t ∧ Ending i s t B := by
  have hpad : i ≠ .padenc := by rcases hi with rfl | rfl <;> exact nofun
  have hbegin : s.Wrote s.beginCommand [] := ⟨rfl⟩
  by_cases h0 : s.len = 0
  · have hrow : tableResults i s.len B = .success 0 0 0 [] := by
      rcases hi with rfl | rfl <;> simp [tableResults, h0]
    refine ⟨_, readHeader_of_empty h0, ?_, (absurd · hpad), .inl rfl⟩
    rw [hrow]
    exact hbegin.finish_eq 0 0 0
  by_cases h8 : s.len % 8 = 0
  · have hy : s.operandG8 0 = .ok (group8At B 0) := hB.operandG8 (g := 0) (hl h0 h8)
    rw [readHeader_of_group h0 h8 hy]
    by_cases hp : 7 ≤ (prefixByte B).toNat
    · have hrow : tableResults i s.len B = .failure (.invalidPadding s.len) := by
        rcases hi with rfl | rfl <;> simp [tableResults, h0, h8, hp]
      refine ⟨_, if_pos hp, ?_, (absurd · hpad), .inl rfl⟩
      rw [hrow]
      exact State.Wrote.raise_eq ⟨rfl⟩ _
    · obtain ⟨t, ht, hend⟩ := hk { s.beginCommand with w8 := group8At B 0, w7 := unpack (group8At B 0) }
        h0 h8 (by omega) ⟨rfl⟩ rfl rfl
      exact ⟨t, (if_neg hp).trans ht, hend⟩
  · have hrow : tableResults i s.len B = .failure (.invalidLength s.len) := by
      rcases hi with rfl | rfl <;> simp [tableResults, h0, h8]
    refine ⟨_, readHeader_of_badLength h8, ?_, (absurd · hpad), .inl rfl⟩
    rw [hrow]
    exact hbegin.raise_eq _

/-! The rows of a text whose padding count is accepted. -/

theorem tableResults_paddec_accepted {n : Nat} (h0 : n ≠ 0) (h8 : n % 8 = 0) (hp : (prefixByte B).toNat ≤ 6) :
    tableResults .paddec n B = .success (prefixByte B).toNat 0 (declen n (prefixByte B).toNat) [] := by
  simp [tableResults, h0, h8, show ¬ 7 ≤ (prefixByte B).toNat by omega]

theorem tableResults_decode_accepted {n : Nat} (h0 : n ≠ 0) (h8 : n % 8 = 0) (hp : (prefixByte B).toNat ≤ 6) :
    tableResults .decode n B = .success (prefixByte B).toNat (declen n (prefixByte B).toNat)
      (declen n (prefixByte B).toNat) (((lambda (B.take n)).drop 1).take (declen n (prefixByte B).toNat)) := by
  simp [tableResults, h0, h8, show ¬ 7 ≤ (prefixByte B).toNat by omega]

theorem execPaddec_ending (hB : s.holdsInput B) (hl : s.len ≠ 0 → s.len % 8 = 0 → 8 ≤ B.length) :
    ∃ t, execPaddec s = .next t ∧ Ending .paddec s t B := by
  refine readHeader_ending (.inl rfl) hB hl fun u h0 h8 hp hu hw hg => ⟨_, rfl, ?_, nofun, .inl hg⟩
  have hs0 : u.w7.s0 = prefixByte B := by rw [hw]; rfl
  rw [tableResults_paddec_accepted h0 h8 hp, hs0, hu.len_eq, ← BitVec.ofNat_toNat]
  exact hu.finish_eq _ _ _

/-! ## ENCODE -/

theorem encodeBytes_eq_range' (B : List Byte) : encodeBytes B =
    (List.range' 0 ((B.length + 1 + pad B.length) / 7)).flatMap fun g =>
      (pack (group7At (logical B) (7 * g))).toList := by
  rw [encodeBytes, length_logical, List.range_eq_range']

/-- The groups of ENCODE write the encoding of the input (42_stream.md R132). -/
theorem encodeGroups_writes (hB : s.holdsInput B) (hl : B.length = s.len) :
    ∃ v, encodeGroups s.len (pad s.len) ((s.len + 1 + pad s.len) / 7) 0 s.beginCommand = .ok v ∧
      s.Wrote v (encodeBytes B) := by
  have hgroup (g : Nat) : s.beginCommand.logicalGroup s.len (pad s.len) g = .ok (group7At (logical B) (7 * g)) := by
    rw [← hl]
    exact (State.logicalGroup_congr rfl _ _ _).trans (hB.logicalGroup g)
  obtain ⟨v7, v8, gi, hrun⟩ := encodeGroups_appends (fun g => group7At (logical B) (7 * g))
    ((s.len + 1 + pad s.len) / 7) 0 s.beginCommand [] (fun g _ _ => hgroup g) rfl rfl
  refine ⟨_, hrun, ?_⟩
  rw [encodeBytes_eq_range', hl, List.nil_append]
  exact ⟨rfl⟩

theorem execEncode_ending (hB : s.holdsInput B) (hl : s.len ≤ B.length) (ha : Config.fits (enclen s.len) = true) :
    ∃ t, execEncode s = .next t ∧ Ending .encode s t B := by
  obtain ⟨v, hrun, hv⟩ := encodeGroups_writes (hB.take s.len) (by simp [hl])
  have hE := enclen_eq_groups s.len
  generalize hG : (s.len + 1 + pad s.len) / 7 = G at hrun hE
  refine ⟨(v.withGi G).finish (BitVec.ofNat 3 (pad s.len)) (8 * G) (8 * G), ?_, ?_, nofun,
    .inr (.inl ⟨rfl, hE.symm⟩)⟩
  · simp [execEncode, admitEncoded_of_fits _ ha, hrun, bind, Except.bind, pure, Except.pure, hG]
  · rw [tableResults, hE]
    exact (hv.withGi G).finish_eq _ _ _

/-! ## DECODE -/

/-- The recovered logical stream of a text of two groups or more: the first group, those between, the last. -/
theorem lambda_eq_first_middle_last {S : List Byte} {n : Nat} (h : S.length = 8 * (n + 2)) :
    lambda S = (unpack (group8At S 0)).toList ++
      ((List.range' 1 n).flatMap fun g => (unpack (group8At S (8 * g))).toList) ++
      (unpack (group8At S (8 * (n + 1)))).toList := by
  have hn : S.length / 8 = n + 1 + 1 := by omega
  rw [lambda, hn, List.range_succ, List.range_eq_range', List.range'_succ]
  simp

/-- A text of one group gives the Unpack of that group. -/
theorem lambda_of_one_group {S : List Byte} (h : S.length = 8) :
    lambda S = (unpack (group8At S 0)).toList := by
  simp [lambda, h]

/-- What DECODE keeps of the recovered logical stream of a text of two groups or more. -/
theorem trimmed_lambda_eq {S : List Byte} {n P : Nat} (h : S.length = 8 * (n + 2)) (hP : P ≤ 6) :
    ((lambda S).drop 1).take (7 * (n + 2) - 1 - P) =
      (unpack (group8At S 0)).toList.drop 1 ++
        ((List.range' 1 n).flatMap fun g => (unpack (group8At S (8 * g))).toList) ++
        (unpack (group8At S (8 * (n + 1)))).toList.take (7 - P) := by
  rw [lambda_eq_first_middle_last h, List.append_assoc, List.drop_append_of_le_length (by simp),
    ← List.append_assoc, List.take_append, List.take_of_length_le (by simp; omega)]
  congr 2
  simp
  omega

/-! The three parts of DECODE's copy; `X` is what stands in `OUT` before. -/

theorem decodeFirst_writes (M : Nat) (hout : s.out = []) :
    s.Wrote (decodeFirst M s) ((s.w7.toList.drop 1).take (min 6 M)) := by
  rw [decodeFirst, State.writeOutList_fresh s _ hout]
  exact ⟨rfl⟩

theorem decodeMiddle_writes {X : List Byte} (f : Nat → G8) (n g : Nat)
    (hf : ∀ j, g ≤ j → j < g + n → s.operandG8 j = .ok (f j)) (hX : s.out = cellsFrom 0 X) (hg : 1 ≤ g)
    (hl : X.length = 7 * g - 1) :
    ∃ v, decodeMiddle n g s = .ok v ∧
      s.Wrote v (X ++ (List.range' g n).flatMap fun j => (unpack (f j)).toList) := by
  obtain ⟨v7, v8, gi, hrun⟩ := decodeMiddle_appends f n g s X hf hX hg hl
  exact ⟨_, hrun, ⟨rfl⟩⟩

theorem decodeGroup_writes {X : List Byte} {y : G8} {g : Nat} (live : Nat) (hy : s.operandG8 g = .ok y)
    (hX : s.out = cellsFrom 0 X) (hl : X.length = 7 * g - 1) :
    ∃ v, decodeGroup g live s = .ok v ∧ s.Wrote v (X ++ (unpack y).toList.take live) :=
  ⟨_, decodeGroup_appends hy hX hl, ⟨rfl⟩⟩

/-- Steps 4 to 7 of DECODE write the recovered logical stream without its first byte and its last `P` bytes. -/
theorem decodeData_writes {S : List Byte} {n P : Nat} (hS : s.holdsInput S) (hlen : S.length = 8 * (n + 1))
    (hP : P ≤ 6) (hout : s.out = []) (hw7 : s.w7 = unpack (group8At S 0)) :
    ∃ v, decodeData (n + 1) P s = .ok v ∧ s.Wrote v (((lambda S).drop 1).take (7 * (n + 1) - 1 - P)) := by
  have hfirst := decodeFirst_writes (7 * (n + 1) - 1 - P) hout
  rw [hw7] at hfirst
  cases n with
  | zero =>
    rw [show min 6 (7 * (0 + 1) - 1 - P) = 7 * (0 + 1) - 1 - P by omega, ← lambda_of_one_group hlen] at hfirst
    exact ⟨_, rfl, hfirst⟩
  | succ n =>
    have hgroup {u : State} (hu : u.inp = s.inp) {g : Nat} (hg : g ≤ n + 1) :
        u.operandG8 g = .ok (group8At S (8 * g)) :=
      (State.operandG8_congr hu g).trans (hS.operandG8 (by omega))
    rw [show min 6 (7 * (n + 1 + 1) - 1 - P) = 6 by omega, List.take_of_length_le (by simp)] at hfirst
    obtain ⟨u, hrun, hmiddle⟩ := decodeMiddle_writes (fun g => group8At S (8 * g)) n 1
      (fun g _ hg => hgroup hfirst.inp_eq (by omega)) hfirst.out_eq le_rfl (by simp)
    have hu := hfirst.trans hmiddle
    obtain ⟨v, hlast, hv⟩ := decodeGroup_writes (g := n + 1) (7 - P) (hgroup hu.inp_eq le_rfl) hu.out_eq
      (by simp; omega)
    refine ⟨v, ?_, ?_⟩
    · simp [decodeData, hrun, hlast, bind, Except.bind]
    · rw [trimmed_lambda_eq hlen hP]
      exact hu.trans hv

theorem execDecode_ending (hB : s.holdsInput B)
    (hl : s.len ≠ 0 → s.len % 8 = 0 → s.len ≤ B.length ∨ 8 ≤ B.length ∧ 7 ≤ (prefixByte B).toNat) :
    ∃ t, execDecode s = .next t ∧ Ending .decode s t B := by
  have hl8 (h0 : s.len ≠ 0) (h8 : s.len % 8 = 0) : 8 ≤ B.length := by
    have := hl h0 h8
    omega
  refine readHeader_ending (.inr rfl) hB hl8 fun u h0 h8 hp hu hw hg => ?_
  have hlen : (B.take s.len).length = 8 * (s.len / 8 - 1 + 1) := by
    have := hl h0 h8
    simp
    omega
  have hs0 : u.w7.s0 = prefixByte B := by rw [hw]; rfl
  obtain ⟨v, hrun, hv⟩ := decodeData_writes ((hB.take s.len).congr fun _ _ => by rw [hu.inp_eq]) hlen hp hu.out_eq
    (by rw [hw, group8At_take (by omega)])
  have hG : s.len / 8 - 1 + 1 = s.len / 8 := by omega
  have hM : 7 * (s.len / 8) - 1 - (prefixByte B).toNat = declen s.len (prefixByte B).toNat := by
    rw [declen, Nat.mul_comm]
  rw [hG] at hrun hv
  rw [hM] at hv
  refine ⟨(v.withGi (s.len / 8)).finish (BitVec.ofNat 3 (prefixByte B).toNat) (declen s.len (prefixByte B).toNat)
    (declen s.len (prefixByte B).toNat), ?_, ?_, nofun, .inr (.inr ⟨rfl, ?_⟩)⟩
  · simp [hs0, hu.len_eq, hrun, bind, Except.bind, pure, Except.pure]
  · rw [tableResults_decode_accepted h0 h8 hp]
    exact ((hu.trans hv).withGi _).finish_eq _ _ _
  · exact Nat.mul_div_cancel' (Nat.dvd_of_mod_eq_zero h8)

end

end Sys2Proof.Machine

/-! # The results and the frame of every command (10_state.md R23 to R25) -/

namespace Sys2Proof.Machine

/-! ## Which inputs let a command end -/

/-- `B` is as long as the command may read, or it is a text DECODE gives up after its first group (41_padding.md
R112). -/
def coversInput (i : Instr) (s : State) (B : List Byte) : Prop :=
  inputBound i s ≤ B.length ∨
    i = .decode ∧ s.len ≠ 0 ∧ s.len % 8 = 0 ∧ 8 ≤ B.length ∧ 7 ≤ (prefixByte B).toNat

theorem inputBound_congr {i : Instr} {s s' : State} (h : i = .pack ∨ i = .unpack ∨ s'.len = s.len) :
    inputBound i s' = inputBound i s := by
  rcases h with rfl | rfl | h
  · rfl
  · rfl
  · simp [inputBound, h]

theorem admitted_congr {i : Instr} {s s' : State} (h : i = .pack ∨ i = .unpack ∨ s'.len = s.len) :
    admitted i s' = admitted i s := by
  rcases h with rfl | rfl | h
  · rfl
  · rfl
  · simp [admitted, h]

theorem tableResults_congr {i : Instr} {m n : Nat} (h : i = .pack ∨ i = .unpack ∨ m = n) (B : List Byte) :
    tableResults i m B = tableResults i n B := by
  rcases h with rfl | rfl | rfl <;> rfl

theorem coversInput.congr {i : Instr} {s s' : State} {B : List Byte} (hc : coversInput i s B)
    (h : i = .pack ∨ i = .unpack ∨ s'.len = s.len) : coversInput i s' B := by
  rcases hc with hl | ⟨rfl, h0, h8, hl, hp⟩
  · exact .inl (by rwa [inputBound_congr h])
  · have hn : s'.len = s.len := by simpa using h
    exact .inr ⟨rfl, by rwa [hn], by rwa [hn], hl, hp⟩

/-- What DECODE can run on, PADDEC can. -/
theorem coversInput.paddec_of_decode {s : State} {B : List Byte} (hc : coversInput .decode s B) :
    coversInput .paddec s B := by
  refine .inl ?_
  rcases hc with hl | ⟨-, h0, h8, hl, -⟩
  · simp only [inputBound] at hl ⊢
    split at hl <;> split <;> omega
  · simp [inputBound, h0, h8, hl]

/-- An admitted command with its input in `IN` ends, as the table says. -/
theorem exec_ending {i : Instr} {s : State} {B : List Byte} (hB : s.holdsInput B) (hc : coversInput i s B)
    (ha : admitted i s = true) : ∃ t, exec i s = .next t ∧ Ending i s t B := by
  cases i with
  | pack => exact execPack_ending hB (by simpa [coversInput, inputBound] using hc)
  | unpack => exact execUnpack_ending hB (by simpa [coversInput, inputBound] using hc)
  | padenc => exact execPadenc_ending ha
  | paddec =>
    refine execPaddec_ending hB fun h0 h8 => ?_
    simpa [coversInput, inputBound, h0, h8] using hc
  | encode => exact execEncode_ending hB (by simpa [coversInput, inputBound] using hc) ha
  | decode =>
    refine execDecode_ending hB fun h0 h8 => ?_
    simpa [coversInput, inputBound, h0, h8] using hc

/-! ## A command that ends was admitted and has read its input -/

theorem admitEncoded_eq_next {s t : State} {k : Outcome} (h : admitEncoded s k = .next t) :
    Config.fits (enclen s.len) = true ∧ k = .next t := by
  cases hf : Config.fits (enclen s.len) with
  | false => rw [admitEncoded_of_not_fits k hf] at h; cases h
  | true => rw [admitEncoded_of_fits k hf] at h; exact ⟨rfl, h⟩

theorem execPack_ready {s t : State} (h : execPack s = .next t) : s.inputWritten 7 := by
  cases hw : s.operandG7 with
  | ok w => exact State.operandG7_inputWritten hw
  | error f =>
    have hb : s.beginCommand.operandG7 = .error f := (State.operandG7_congr rfl).trans hw
    simp [execPack, hb, bind, Except.bind] at h

theorem inputWritten_of_operandG8 {s : State} {y : G8} (h : s.operandG8 0 = .ok y) : s.inputWritten 8 :=
  State.inputWritten_of_groups (n := 1) fun g hg => ⟨y, by rwa [Nat.lt_one_iff.1 hg]⟩

theorem execUnpack_ready {s t : State} (h : execUnpack s = .next t) : s.inputWritten 8 := by
  cases hy : s.operandG8 0 with
  | ok y => exact inputWritten_of_operandG8 hy
  | error f =>
    have hb : s.beginCommand.loadUnpacked 0 = .error f :=
      State.loadUnpacked_eq_error.2 ((State.operandG8_congr rfl 0).trans hy)
    simp [execUnpack, hb, bind, Except.bind] at h

theorem execPaddec_ready {s t : State} (h : execPaddec s = .next t) (h0 : s.len ≠ 0) (h8 : s.len % 8 = 0) :
    s.inputWritten 8 := by
  cases hy : s.operandG8 0 with
  | ok y => exact inputWritten_of_operandG8 hy
  | error f => simp [execPaddec, readHeader_of_unreadable h0 h8 hy] at h

theorem execEncode_ready {s t : State} (h : execEncode s = .next t) :
    Config.fits (enclen s.len) = true ∧ s.inputWritten s.len := by
  obtain ⟨hfits, hrun⟩ := admitEncoded_eq_next h
  refine ⟨hfits, ?_⟩
  cases hg : encodeGroups s.len (pad s.len) ((s.len + 1 + pad s.len) / 7) 0 s.beginCommand with
  | error f => simp [hg, bind, Except.bind] at hrun
  | ok u =>
    refine State.inputWritten_of_logicalGroups (P := pad s.len) (n := (s.len + 1 + pad s.len) / 7) ?_ fun g hlt => ?_
    · rw [seven_mul_groups]
      omega
    · obtain ⟨w, hw⟩ := (encodeGroups_eq_ok hg).1 g (by omega) (by omega)
      exact ⟨w, (State.logicalGroup_congr rfl _ _ _).trans hw⟩

/-- Steps 4 to 7 of DECODE answer a state only where every group after the first can be read. -/
theorem decodeData_groups {G P : Nat} {s u : State} (h : decodeData G P s = .ok u) {g : Nat} (h1 : 1 ≤ g)
    (hg : g < G) : ∃ y, s.operandG8 g = .ok y := by
  have hinp : (decodeFirst (7 * G - 1 - P) s).inp = s.inp := State.writeOutList_inp _ _ _
  cases hm : decodeMiddle (G - 2) 1 (decodeFirst (7 * G - 1 - P) s) with
  | error f => simp [decodeData, hm, bind, Except.bind] at h
  | ok v =>
    obtain ⟨hmiddle, hv⟩ := decodeMiddle_eq_ok hm
    by_cases hlast : g = G - 1
    · have hrun : decodeGroup (G - 1) (7 - P) v = .ok u := by
        simpa [decodeData, hm, bind, Except.bind, show 2 ≤ G by omega] using h
      obtain ⟨y, hy, -⟩ := decodeGroup_eq_ok.1 hrun
      have hvinp : v.inp = s.inp := by rw [hv]; exact hinp
      exact ⟨y, by rw [hlast, ← hy, State.operandG8_congr hvinp]⟩
    · obtain ⟨y, hy⟩ := hmiddle g h1 (by omega)
      exact ⟨y, by rw [← hy, State.operandG8_congr hinp]⟩

theorem execDecode_ready {s t : State} (h : execDecode s = .next t) (h0 : s.len ≠ 0) (h8 : s.len % 8 = 0) :
    s.badPrefix ∨ s.inputWritten s.len := by
  cases hy : s.operandG8 0 with
  | error f => simp [execDecode, readHeader_of_unreadable h0 h8 hy] at h
  | ok y =>
    have hcells := State.operandG8_eq_ok.1 hy
    by_cases hp : 7 ≤ (unpack y).s0.toNat
    · refine .inl ⟨y, fun a ha => ?_, hp⟩
      have hk := hcells ⟨a, ha⟩
      rw [G8.toList_getElem? y ⟨a, ha⟩, ← hk]
      simp
    · right
      rw [execDecode, readHeader_of_group h0 h8 hy, if_neg hp] at h
      generalize hu : ({ s.beginCommand with w8 := y, w7 := unpack y } : State) = u at h
      have hinp : u.inp = s.inp := by rw [← hu]; rfl
      have hlen : u.len = s.len := by rw [← hu]; rfl
      cases hd : decodeData (u.len / 8) u.w7.s0.toNat u with
      | error f => simp [hd, bind, Except.bind] at h
      | ok v =>
        rw [show s.len = 8 * (s.len / 8) by omega]
        refine State.inputWritten_of_groups fun g hg => ?_
        rcases Nat.eq_zero_or_pos g with rfl | h1
        · exact ⟨y, hy⟩
        · obtain ⟨z, hz⟩ := decodeData_groups hd h1 (by rwa [hlen])
          exact ⟨z, (State.operandG8_congr hinp g).symm.trans hz⟩

theorem exec_next_ready {i : Instr} {s t : State} (h : exec i s = .next t) :
    admitted i s = true ∧ inputReady i s := by
  cases i with
  | pack => exact ⟨rfl, execPack_ready h⟩
  | unpack => exact ⟨rfl, execUnpack_ready h⟩
  | padenc => exact ⟨(admitEncoded_eq_next h).1, trivial⟩
  | paddec => exact ⟨rfl, execPaddec_ready h⟩
  | encode => exact execEncode_ready h
  | decode => exact ⟨rfl, execDecode_ready h⟩

theorem inputReady.cases {i : Instr} {s : State} (h : inputReady i s) :
    s.inputWritten (inputBound i s) ∨ i = .decode ∧ s.len ≠ 0 ∧ s.len % 8 = 0 ∧ s.badPrefix := by
  cases i with
  | pack => exact .inl h
  | unpack => exact .inl h
  | padenc => exact .inl nofun
  | paddec =>
    left
    simp only [inputBound]
    split
    · next hl => exact h hl.2 hl.1
    · exact nofun
  | encode => exact .inl h
  | decode =>
    simp only [inputBound, true_and]
    by_cases h8 : s.len % 8 = 0
    · rw [if_pos h8]
      by_cases h0 : s.len = 0
      · rw [h0]
        exact .inl nofun
      · rcases h h0 h8 with hbad | hwritten
        · exact .inr ⟨h0, h8, hbad⟩
        · exact .inl hwritten
    · rw [if_neg h8]
      exact .inl nofun

/-- The cells a ready command reads hold a list of bytes it can run on. -/
theorem inputReady.exists_bytes {i : Instr} {s : State} (h : inputReady i s) :
    ∃ B : List Byte, B.length ≤ inputBound i s ∧ s.holdsInput B ∧ coversInput i s B := by
  rcases h.cases with hw | ⟨rfl, h0, h8, y, hy, hp⟩
  · obtain ⟨B, hl, hB⟩ := hw.exists_bytes
    exact ⟨B, hl.le, hB, .inl hl.ge⟩
  · refine ⟨y.toList, ?_, hy, .inr ⟨rfl, h0, h8, le_rfl, hp⟩⟩
    rw [G8.toList_length, inputBound, if_pos h8]
    omega

/-- Every command that ends, ends as the table says, on bytes that stand among the cells it may read. -/
theorem exec_next_ending {i : Instr} {s t : State} (h : exec i s = .next t) :
    ∃ B : List Byte, B.length ≤ inputBound i s ∧ s.holdsInput B ∧ coversInput i s B ∧ Ending i s t B := by
  obtain ⟨ha, hr⟩ := exec_next_ready h
  obtain ⟨B, hl, hB, hc⟩ := hr.exists_bytes
  obtain ⟨u, hu, hend⟩ := exec_ending hB hc ha
  obtain rfl : u = t := by simpa [hu] using h
  exact ⟨B, hl, hB, hc, hend⟩

/-! ## The statements on the results -/

/-- Settles O34, by the row each command leaves on the bytes of `IN`. -/
theorem everyCommandLeavesItsRowOfTheTable : Obligations.EveryCommandLeavesItsRowOfTheTable := by
  intro i s B hB hl ha
  obtain ⟨t, ht, hend⟩ := exec_ending hB (.inl hl) ha
  exact ⟨t, ht, hend.results_eq⟩

/-- Settles O30: the bytes the command ran on stand in the second state too, and the table is a function of them. -/
theorem resultsDependOnlyOnTheInputs : Obligations.ResultsDependOnlyOnTheInputs := by
  intro i s s' t hn hcells ht
  obtain ⟨B, hl, hB, hc, hend⟩ := exec_next_ending ht
  have hB' : s'.holdsInput B := hB.congr fun a ha => hcells a (by omega)
  have ha' : admitted i s' = true := by rw [admitted_congr hn]; exact (exec_next_ready ht).1
  obtain ⟨t', ht', hend'⟩ := exec_ending hB' (hc.congr hn) ha'
  exact ⟨t', ht', by rw [hend'.results_eq, hend.results_eq, tableResults_congr hn]⟩

/-- The row of PADENC and that of ENCODE name the same sizes. -/
theorem tableResults_padenc_encode (n : Nat) (B C : List Byte) :
    (tableResults .padenc n B).pad = (tableResults .encode n C).pad ∧
      (tableResults .padenc n B).rlen = (tableResults .encode n C).olen ∧
      (tableResults .padenc n B).rlen = (tableResults .encode n C).rlen := ⟨rfl, rfl, rfl⟩

/-- The rows of PADDEC and of DECODE agree on everything but the output. -/
theorem tableResults_paddec_decode (n : Nat) (B : List Byte) :
    (tableResults .paddec n B).code = (tableResults .decode n B).code ∧
      (tableResults .paddec n B).errlen = (tableResults .decode n B).errlen ∧
      (tableResults .paddec n B).pad = (tableResults .decode n B).pad ∧
      (tableResults .paddec n B).rlen = (tableResults .decode n B).rlen := by
  simp only [tableResults]
  split_ifs <;> exact ⟨rfl, rfl, rfl, rfl⟩

/-- Settles O35: the rows of the table agree, on the bytes the working command ran on. -/
theorem sizingCommandsPredictTheWork : Obligations.SizingCommandsPredictTheWork := by
  refine ⟨fun s t u ht hu => ?_, fun s t u ht hu => ?_⟩
  · obtain ⟨B, -, -, -, hend⟩ := exec_next_ending ht
    obtain ⟨C, -, -, -, hend'⟩ := exec_next_ending hu
    rw [hend.whole, hend'.whole]
    exact tableResults_padenc_encode s.len B C
  · obtain ⟨B, -, hB, hc, hend'⟩ := exec_next_ending hu
    obtain ⟨t', ht', hend⟩ := exec_ending hB hc.paddec_of_decode rfl
    obtain rfl : t' = t := by simpa [ht'] using ht
    rw [hend.whole, hend'.whole]
    exact tableResults_paddec_decode s.len B

end Sys2Proof.Machine

/-! # The frame of every command and the invariant of the block

A row of the table of results has one of three shapes (`Results.Legal`); the frame and the invariant are read off the
shape. What an action of the host can do is said once (`hostAct_next_cases`). -/

namespace Sys2Proof.Machine

/-! ## The shapes of a row -/

/-- What a command whose `LEN` is `n` may leave: a success with at most 6 filler bytes whose output is as long as `OLEN`
says, or one of the two errors with the length it is raised for (10_state.md R19 to R23). -/
inductive Results.Legal (n : Nat) : Results → Prop
  | success {p m k : Nat} {C : List Byte} (hp : p ≤ 6) (hC : C.length = m) (hm : m = 0 ∨ m = k)
      (hk : Config.fits n = true → Config.fits k = true) : Results.Legal n (.success p m k C)
  | badLength (h8 : n % 8 ≠ 0) : Results.Legal n (.failure (.invalidLength n))
  | badPadding (h0 : n ≠ 0) (h8 : n % 8 = 0) : Results.Legal n (.failure (.invalidPadding n))

theorem declen_le (n P : Nat) : declen n P ≤ n := by
  unfold declen
  omega

/-- The output of a successful DECODE has the length it reports. -/
theorem length_trimmed_lambda {S : List Byte} (P : Nat) :
    (((lambda S).drop 1).take (declen S.length P)).length = declen S.length P := by
  simp only [List.length_take, List.length_drop, length_lambda, declen]
  omega

section
variable {s : State} {B : List Byte}

theorem tableResults_paddec_legal : Results.Legal s.len (tableResults .paddec s.len B) := by
  simp only [tableResults]
  split_ifs with h0 h8 hp
  · exact .success (by omega) rfl (.inl rfl) fun _ => Config.fits_zero
  · exact .badLength h8
  · exact .badPadding h0 (by omega)
  · exact .success (by omega) rfl (.inl rfl) (Config.fits_mono (declen_le _ _))

theorem tableResults_decode_legal (hc : coversInput .decode s B) :
    Results.Legal s.len (tableResults .decode s.len B) := by
  simp only [tableResults]
  split_ifs with h0 h8 hp
  · exact .success (by omega) rfl (.inl rfl) fun _ => Config.fits_zero
  · exact .badLength h8
  · exact .badPadding h0 (by omega)
  · have hl : s.len ≤ B.length := by
      rcases hc with hl | ⟨-, -, -, -, h7⟩
      · simpa [inputBound, show s.len % 8 = 0 by omega] using hl
      · exact absurd h7 hp
    have hlen : (B.take s.len).length = s.len := by simp [hl]
    refine .success (by omega) ?_ (.inr rfl) (Config.fits_mono (declen_le _ _))
    have := length_trimmed_lambda (S := B.take s.len) (prefixByte B).toNat
    rwa [hlen] at this

theorem tableResults_legal {i : Instr} (hc : coversInput i s B) (ha : admitted i s = true) :
    Results.Legal s.len (tableResults i s.len B) := by
  cases i with
  | pack => exact .success (by omega) rfl (.inr rfl) fun _ => Config.fits_of_le_eight (by omega)
  | unpack => exact .success (by omega) rfl (.inr rfl) fun _ => Config.fits_of_le_eight (by omega)
  | padenc => exact .success (pad_le _) rfl (.inl rfl) fun _ => ha
  | paddec => exact tableResults_paddec_legal
  | encode =>
    have hl : s.len ≤ B.length := by simpa [coversInput, inputBound] using hc
    exact .success (pad_le _) (by simp [length_encodeBytes, hl]) (.inr rfl) fun _ => ha
  | decode => exact tableResults_decode_legal hc

end

/-! ## What every shape has -/

section
variable {n : Nat} {r : Results}

/-- `OUT` holds a run of cells from index 0 on, as long as `OLEN` says. -/
theorem Results.Legal.out_eq (h : r.Legal n) : ∃ C, r.out = cellsFrom 0 C ∧ C.length = r.olen := by
  cases h with
  | success _ hC _ _ => exact ⟨_, rfl, hC⟩
  | badLength => exact ⟨[], rfl, rfl⟩
  | badPadding => exact ⟨[], rfl, rfl⟩

theorem Results.Legal.olen_cases (h : r.Legal n) : r.olen = 0 ∨ r.olen = r.rlen := by
  cases h with
  | success _ _ hm _ => exact hm
  | badLength => exact .inl rfl
  | badPadding => exact .inl rfl

theorem Results.Legal.fits_rlen (h : r.Legal n) (hn : Config.fits n = true) : Config.fits r.rlen = true := by
  cases h with
  | success _ _ _ hk => exact hk hn
  | badLength => exact Config.fits_zero
  | badPadding => exact Config.fits_zero

theorem Results.Legal.fits_errlen (h : r.Legal n) (hn : Config.fits n = true) : Config.fits r.errlen = true := by
  cases h with
  | success => exact Config.fits_zero
  | badLength => exact hn
  | badPadding => exact hn

theorem Results.Legal.fits_olen (h : r.Legal n) (hn : Config.fits n = true) : Config.fits r.olen = true := by
  rcases h.olen_cases with h0 | hr
  · rw [h0]
    exact Config.fits_zero
  · rw [hr]
    exact h.fits_rlen hn

theorem Results.Legal.pad_le (h : r.Legal n) : r.pad.toNat ≤ 6 := by
  cases h with
  | success hp =>
    rw [Results.success, BitVec.toNat_ofNat]
    omega
  | badLength => exact Nat.zero_le 6
  | badPadding => exact Nat.zero_le 6

/-- The end of a command with a row of a legal shape keeps the invariant. -/
theorem State.Inv.ended {s : State} {v7 : G7} {v8 : G8} {g : Nat} (hs : s.Inv) (h : r.Legal s.len)
    (hg : Config.fits (8 * g) = true) : (s.ended v7 v8 g r).Inv where
  inWf := hs.inWf
  outCells := by
    obtain ⟨C, hC, hl⟩ := h.out_eq
    show r.out.map Prod.fst = List.range r.olen
    rw [hC, cellsFrom_zero_map_fst, hl]
  giFits := hg
  lenFits := hs.lenFits
  errlenFits := h.fits_errlen hs.lenFits
  olenFits := h.fits_olen hs.lenFits
  rlenFits := h.fits_rlen hs.lenFits
  cmdLegal := hs.cmdLegal
  padRange := h.pad_le
  okErrlen := by
    cases h with
    | success => exact fun _ => rfl
    | badLength => exact nofun
    | badPadding => exact nofun
  lengthErrlen := by
    cases h with
    | success => exact nofun
    | badLength h8 => exact fun _ => h8
    | badPadding => exact nofun
  paddingErrlen := by
    cases h with
    | success => exact nofun
    | badLength => exact nofun
    | badPadding h0 h8 => exact fun _ => ⟨h0, h8⟩
  errorZeroes := by
    cases h with
    | success => exact fun hne => absurd rfl hne
    | badLength => exact fun _ => ⟨rfl, rfl, rfl⟩
    | badPadding => exact fun _ => ⟨rfl, rfl, rfl⟩
  olenRlen := h.olen_cases

end

/-! ## The frame -/

/-- Settles O29: the command's end says what it leaves, and the shape of its row how far `OUT` goes. -/
theorem commandsChangeNothingElse : Obligations.CommandsChangeNothingElse := by
  intro i s t ht
  obtain ⟨B, -, -, hc, hend⟩ := exec_next_ending ht
  obtain ⟨C, hC, hl⟩ := (tableResults_legal hc (exec_next_ready ht).1).out_eq
  have hout (a : Nat) : t.out.read a = none ↔ t.olen ≤ a := by
    rw [hend.whole]
    show (tableResults i s.len B).out.read a = none ↔ (tableResults i s.len B).olen ≤ a
    rw [hC, read_cellsFrom_zero, ← hl, List.getElem?_eq_none_iff]
  have hgi (he : i ≠ .encode) (hd : i ≠ .decode) : t.gi = 0 := by
    simpa [he, hd] using hend.groupIndex
  refine ⟨?_, ?_, fun a => ?_, ?_, ?_, ?_, hout, hend.windows, hgi⟩ <;> rw [hend.whole] <;> rfl

/-! ## The invariant through a command -/

/-- The invariant says nothing of the host's record nor of the drawn free values. -/
theorem State.Inv.withRecord {s : State} (hs : s.Inv) (host : HostAgent) (draws : Nat) :
    State.Inv { s with host := host, draws := draws } := { hs with }

theorem exec_keeps_inv {i : Instr} {s t : State} (hs : s.Inv) (ht : exec i s = .next t) : t.Inv := by
  obtain ⟨B, -, -, hc, hend⟩ := exec_next_ending ht
  have ha : admitted i s = true := (exec_next_ready ht).1
  have hg : Config.fits (8 * t.gi) = true := by
    rcases hend.groupIndex with h0 | ⟨rfl, he⟩ | ⟨rfl, hd⟩
    · rw [h0]
      exact Config.fits_zero
    · rw [he]
      exact ha
    · rw [hd]
      exact hs.lenFits
  rw [hend.whole]
  exact hs.ended (tableResults_legal hc ha) hg

theorem coreMove_keeps_inv {s t : State} (hs : s.Inv) (ht : coreMove s = .next t) : t.Inv := by
  cases hp : s.phase with
  | idle =>
    obtain rfl : s = t := by simpa [coreMove_of_idle hp] using ht
    exact hs
  | busy =>
    obtain ⟨i, hi⟩ := (decode_eq_ok_iff_wordWellFormed s.cmd).2 hs.cmdLegal
    rw [coreMove_of_busy hp hi] at ht
    exact exec_keeps_inv hs ht

/-! ## What an action of the host can do -/

/-- The states an action of the host may answer, from the state `s`. -/
inductive HostEffect (s : State) : State → Prop
  /-- A read, or a write of a read-only register: at most the host's record and the count of draws change. -/
  | record (host : HostAgent) (draws : Nat) : HostEffect s { s with host := host, draws := draws }
  | start {w : Byte} (hw : wordWellFormed w = true) : HostEffect s (s.start w)
  | setLen {n : Nat} (hn : Config.fits n = true) : HostEffect s (s.withLen n)
  | writeIn {a : Nat} (v : Byte) (ha : Config.fits (a + 1) = true) : HostEffect s (s.withIn (s.inp.write a v))
  | reset : HostEffect s s.applyReset

section
variable {s t : State}

theorem HostEffect.observe (o : Observation) : HostEffect s (s.observe o) := .record _ s.draws

theorem hostWriteCmd_effect {v : Nat} (h : hostWriteCmd v s = .next t) : HostEffect s t := by
  unfold hostWriteCmd at h
  split at h
  · cases h
  · split at h
    · split at h
      · next i hi =>
        cases h
        exact .start ((decode_eq_ok_iff_wordWellFormed _).1 ⟨i, hi⟩)
      · cases h
    · cases h

theorem hostWriteLen_effect {n : Nat} (h : hostWriteLen n s = .next t) : HostEffect s t := by
  unfold hostWriteLen at h
  split at h
  · cases h
  · split at h
    · next hn =>
      cases h
      exact .setLen hn
    · cases h

theorem hostWriteReg_effect {n v : Nat} (h : hostWriteReg n v s = .next t) : HostEffect s t := by
  unfold hostWriteReg at h
  split at h
  · exact hostWriteCmd_effect h
  · exact hostWriteLen_effect h
  iterate 5
    · cases h
      exact .record s.host s.draws
  · cases h

theorem hostReadStatus_effect (h : hostReadStatus s = .next t) : HostEffect s t := by
  unfold hostReadStatus at h
  split at h
  · cases h
    exact .observe _
  · cases h
    exact .record _ _

theorem hostReadResult_effect {n v : Nat} (h : hostReadResult n v s = .next t) : HostEffect s t := by
  unfold hostReadResult at h
  split at h
  · cases h
    exact .observe _
  · cases h

theorem hostReadReg_effect {n : Nat} (h : hostReadReg n s = .next t) : HostEffect s t := by
  unfold hostReadReg at h
  split at h
  iterate 2
    · cases h
      exact .observe _
  · exact hostReadStatus_effect h
  iterate 4
    · exact hostReadResult_effect h
  · cases h

theorem hostWriteIn_effect {a : Nat} {v : Byte} (h : hostWriteIn a v s = .next t) : HostEffect s t := by
  unfold hostWriteIn at h
  split at h
  · cases h
  · split at h
    · next ha =>
      cases h
      exact .writeIn v ha
    · cases h

theorem hostReadOut_effect {a : Nat} (h : hostReadOut a s = .next t) : HostEffect s t := by
  unfold hostReadOut at h
  split at h
  · cases h
  · split at h
    · split at h
      · cases h
        exact .observe _
      · cases h
    · cases h

theorem hostAct_effect {a : HostAction} (h : hostAct a s = .next t) : HostEffect s t := by
  cases a with
  | writeReg n v => exact hostWriteReg_effect h
  | readReg n => exact hostReadReg_effect h
  | writeIn i v => exact hostWriteIn_effect h
  | readOut i => exact hostReadOut_effect h
  | reset =>
    cases h
    exact .reset

end

/-! ## The invariant through every step -/

theorem State.applyReset_inv (s : State) : s.applyReset.Inv where
  inWf := Memory.nil_wf
  outCells := rfl
  giFits := Config.fits_zero
  lenFits := Config.fits_zero
  errlenFits := Config.fits_zero
  olenFits := Config.fits_zero
  rlenFits := Config.fits_zero
  cmdLegal := (by decide : wordWellFormed 0#8 = true)
  padRange := Nat.zero_le 6
  okErrlen _ := rfl
  lengthErrlen := nofun
  paddingErrlen := nofun
  errorZeroes h := absurd rfl h
  olenRlen := .inl rfl

theorem HostEffect.keeps_inv {s t : State} (h : HostEffect s t) (hs : s.Inv) : t.Inv := by
  cases h with
  | record host draws => exact hs.withRecord host draws
  | start hw => exact { hs with cmdLegal := hw }
  | setLen hn => exact { hs with lenFits := hn }
  | writeIn v ha => exact { hs with inWf := Memory.write_wf v hs.inWf ha }
  | reset => exact s.applyReset_inv

/-- Settles O36: the core's move and every effect of the host keep the invariant, which says nothing of the list of
moves. -/
theorem stepKeepsTheInvariant : Obligations.StepKeepsTheInvariant := by
  intro s t hs ht
  obtain ⟨u, rfl, ⟨-, hcore⟩ | ⟨a, -, hact⟩⟩ := step_cases s
  · exact coreMove_keeps_inv (hs.withRecord _ _) (hcore ▸ ht)
  · exact (hostAct_effect (hact ▸ ht)).keeps_inv (hs.withRecord _ _)

end Sys2Proof.Machine

/-! # The flat windows (10_state.md R28) -/

namespace Sys2Proof

/-- A byte shifted to slot `m` of a wide word shows in that slot only. -/
theorem getLsbD_slot {n : Nat} (b : Byte) (m k i : Nat) (hi : i < 8) (hn : 8 * k + i < n) :
    (b.setWidth n <<< (8 * m)).getLsbD (8 * k + i) = (decide (m = k) && b.getLsbD i) := by
  rw [BitVec.getLsbD_shiftLeft, BitVec.getLsbD_setWidth]
  rcases Nat.lt_trichotomy m k with h | rfl | h
  · rw [BitVec.getLsbD_of_ge b _ (by omega)]
    simp [h.ne]
  · simp [hn, show 8 * m + i - 8 * m = i by omega]
    omega
  · simp [h.ne', show 8 * k + i < 8 * m by omega]

theorem G7.flat_eq_slots (w : G7) : w.flat =
    w.s0.setWidth 56 <<< (8 * 0) ||| w.s1.setWidth 56 <<< (8 * 1) ||| w.s2.setWidth 56 <<< (8 * 2) |||
      w.s3.setWidth 56 <<< (8 * 3) ||| w.s4.setWidth 56 <<< (8 * 4) ||| w.s5.setWidth 56 <<< (8 * 5) |||
      w.s6.setWidth 56 <<< (8 * 6) := by
  simp [G7.flat]

theorem G8.flat_eq_slots (w : G8) : w.flat =
    w.y0.setWidth 64 <<< (8 * 0) ||| w.y1.setWidth 64 <<< (8 * 1) ||| w.y2.setWidth 64 <<< (8 * 2) |||
      w.y3.setWidth 64 <<< (8 * 3) ||| w.y4.setWidth 64 <<< (8 * 4) ||| w.y5.setWidth 64 <<< (8 * 5) |||
      w.y6.setWidth 64 <<< (8 * 6) ||| w.y7.setWidth 64 <<< (8 * 7) := by
  simp [G8.flat]

theorem G7.getLsbD_flat (w : G7) (k : Fin 7) (i : Nat) (hi : i < 8) :
    w.flat.getLsbD (8 * k.val + i) = (w.get k).getLsbD i := by
  have hslot (b : Byte) (m : Nat) := getLsbD_slot (n := 56) b m k.val i hi (by omega)
  simp only [G7.flat_eq_slots, BitVec.getLsbD_or, hslot]
  fin_cases k <;> simp [G7.get]

theorem G8.getLsbD_flat (w : G8) (k : Fin 8) (i : Nat) (hi : i < 8) :
    w.flat.getLsbD (8 * k.val + i) = (w.get k).getLsbD i := by
  have hslot (b : Byte) (m : Nat) := getLsbD_slot (n := 64) b m k.val i hi (by omega)
  simp only [G8.flat_eq_slots, BitVec.getLsbD_or, hslot]
  fin_cases k <;> simp [G8.get]

/-- Settles O15, bit by bit. -/
theorem flatWindowsHoldElementsInOrder : Obligations.FlatWindowsHoldElementsInOrder := by
  refine ⟨fun w k => BitVec.eq_of_getLsbD_eq fun i hi => ?_, fun w k => BitVec.eq_of_getLsbD_eq fun i hi => ?_⟩
  · rw [BitVec.getLsbD_extractLsb', decide_eq_true hi, Bool.true_and, G7.getLsbD_flat w k i hi]
  · rw [BitVec.getLsbD_extractLsb', decide_eq_true hi, Bool.true_and, G8.getLsbD_flat w k i hi]

end Sys2Proof

/-! # The step, reset and the register file (10_state.md R10 to R23, R27) -/

namespace Sys2Proof.Machine

/-- A command word decodes to its command (30_encoding.md R70, R74). -/
theorem decode_encode_instr (i : Instr) : Sys2Proof.decode (Sys2Proof.encode i) = .ok i := by
  cases i <;> rfl

/-! ## The step -/

/-- Settles O4. -/
theorem stepRunsTheStartedCommand : Obligations.StepRunsTheStartedCommand := by
  intro s i hmove hbusy hi
  obtain ⟨t, rfl, ⟨-, hcore⟩ | ⟨a, hact, -⟩⟩ := step_cases s
  · rw [hcore]
    exact coreMove_of_busy hbusy hi
  · rcases hmove with h | h <;> simp [h] at hact

/-- Settles O5. -/
theorem stepPerformsTheHostsAction : Obligations.StepPerformsTheHostsAction := by
  intro s a rest h
  simp [step, takeMove_of_cons h]

/-- Settles O7: the move `withFetchWord` puts in front is the core's, and the word stands in `CMD`. -/
theorem fetchWordRunsNext : Obligations.FetchWordRunsNext := by
  intro s w i hi
  have hw : BitVec.ofNat 8 w.toNat = w := by simp
  have hstep := stepRunsTheStartedCommand (s.withFetchWord 8 w.toNat) i (.inr rfl) rfl
    (by rw [← hi]; exact congrArg Sys2Proof.decode hw)
  rw [hstep]
  simp [State.withFetchWord, State.start]

/-! ## Reset -/

/-- Settles O8. -/
theorem resetLeavesTheStatedValues : Obligations.ResetLeavesTheStatedValues :=
  ⟨rfl, rfl, rfl, rfl, rfl, rfl, rfl, rfl, rfl, rfl, Memory.read_nil, Memory.read_nil⟩

/-! ## Writes of registers -/

theorem hostWriteCmd_of_idle {s : State} {w : Byte} {i : Instr} (h : s.phase = .idle)
    (hi : Sys2Proof.decode w = .ok i) : hostWriteCmd w.toNat s = .next (s.start w) := by
  have hlt : w.toNat < 256 := w.isLt
  simp [hostWriteCmd, h, hlt, hi]

theorem hostWriteLen_of_idle {s : State} (n : Nat) (h : s.phase = .idle) :
    hostWriteLen n s = if Config.fits n then .next (s.withLen n) else .refused (.lengthTooLong n) := by
  simp [hostWriteLen, h]

theorem hostWriteReg_of_readOnly {s : State} {n : Nat} (v : Nat) (h2 : 2 ≤ n) (h6 : n ≤ 6) :
    hostWriteReg n v s = .next s := by
  interval_cases n <;> rfl

/-- A number of 7 or more names no register, for a write and for a read (10_state.md R16). -/
theorem hostReg_of_seven_le {s : State} {n : Nat} (v : Nat) (h : 7 ≤ n) :
    hostWriteReg n v s = .refused (.noSuchRegister n) ∧ hostReadReg n s = .refused (.noSuchRegister n) := by
  obtain ⟨m, rfl⟩ := Nat.exists_eq_add_of_le' h
  exact ⟨rfl, rfl⟩

/-- Settles O47. -/
theorem legalCommandWriteStarts : Obligations.LegalCommandWriteStarts :=
  fun _ i h => hostWriteCmd_of_idle h (decode_encode_instr i)

/-- Settles O48. -/
theorem lengthWriteStoresWhatFits : Obligations.LengthWriteStoresWhatFits :=
  fun _ n h => hostWriteLen_of_idle n h

/-- Settles O49. -/
theorem readOnlyRegistersIgnoreWrites : Obligations.ReadOnlyRegistersIgnoreWrites :=
  fun _ _ v => ⟨hostWriteReg_of_readOnly v, hostReg_of_seven_le v⟩

/-! ## The fields of `STATUS` and `PAD` -/

theorem statusWith_reserved (p : Phase) (c : BitVec 2) : (statusWith p c).extractLsb' 3 5 = 0#5 := by
  cases p <;> revert c <;> decide

theorem statusWith_busy (c : BitVec 2) : (statusWith .busy c).getLsbD 2 = true := by
  revert c
  decide

theorem statusWith_idle_high (c : BitVec 2) : (statusWith .idle c).extractLsb' 2 6 = 0#6 := by
  revert c
  decide

theorem statusWith_code (p : Phase) (c : BitVec 2) : (statusWith p c).extractLsb' 0 2 = c := by
  cases p <;> revert c <;> decide

theorem padWord_fields (s : State) : (padWord s).extractLsb' 3 5 = 0#5 ∧ (padWord s).extractLsb' 0 3 = s.pad := by
  unfold padWord
  generalize s.pad = p
  revert p
  decide

/-! ## Reads of registers -/

theorem hostReadResult_of_idle {s : State} (n v : Nat) (h : s.phase = .idle) :
    hostReadResult n v s = .next (s.observe (.reg n v)) := by
  simp [hostReadResult, h]

theorem hostReadStatus_of_idle {s : State} (h : s.phase = .idle) :
    hostReadStatus s = .next (s.observe (.reg 2 (statusWord s).toNat)) := by
  simp [hostReadStatus, h]

theorem hostReadStatus_of_busy {s : State} (h : s.phase = .busy) :
    hostReadStatus s = .next { s.observe (.reg 2 (statusWith .busy (Config.busyCode s.draws)).toNat) with
      draws := s.draws + 1 } := by
  simp [hostReadStatus, h]

/-- Settles O50, register by register. -/
theorem registerReadsAnswerWhileIdle : Obligations.RegisterReadsAnswerWhileIdle := by
  intro s h
  obtain ⟨hreserved, hpad⟩ := padWord_fields s
  refine ⟨statusWord s, padWord s, ?_, ?_, hreserved, hpad, ?_⟩
  · rw [statusWord, h, statusWith_idle_high]
  · rw [statusWord, statusWith_code]
    cases s.code <;> rfl
  · simp only [List.forall_mem_cons]
    exact ⟨rfl, rfl, hostReadStatus_of_idle h, hostReadResult_of_idle 3 _ h, hostReadResult_of_idle 4 _ h,
      hostReadResult_of_idle 5 _ h, hostReadResult_of_idle 6 _ h, nofun⟩

/-- Settles O51. -/
theorem statusReadWhileBusyShowsBusy : Obligations.StatusReadWhileBusyShowsBusy :=
  fun _ h => ⟨_, statusWith_busy _, statusWith_reserved _ _, hostReadStatus_of_busy h⟩

end Sys2Proof.Machine

/-! # The byte spaces as the host sees them (20_memory.md R40, R41, R43) -/

namespace Sys2Proof.Machine

/-! ## A write of `IN` -/

theorem hostWriteIn_of_idle {s : State} {a : Nat} (v : Byte) (h : s.phase = .idle)
    (ha : Config.fits (a + 1) = true) : hostWriteIn a v s = .next (s.withIn (s.inp.write a v)) := by
  simp [hostWriteIn, h, ha]

/-- Settles O52: the write is `Memory.write`, whose laws say the rest. -/
theorem inputWriteIsReadBack : Obligations.InputWriteIsReadBack := by
  intro s a v hidle ha
  refine ⟨s.inp.write a v, hostWriteIn_of_idle v hidle ha, ?readBack, ?others, ?canonical⟩
  case readBack => exact Memory.read_write_same s.inp a v
  case others => exact fun b hb => Memory.read_write_other s.inp v hb
  case canonical => exact fun hwf => Memory.write_wf v hwf ha

/-! ## A read of `OUT` -/

/-- The invariant says of `OUT` that it holds a value exactly below `OLEN`. -/
theorem State.Inv.out_read_isSome_iff {s : State} (hs : s.Inv) {a : Nat} :
    (s.out.read a).isSome = true ↔ a < s.olen := by
  rw [Memory.read_isSome_iff, hs.outCells, List.mem_range]

theorem hostReadOut_of_read {s : State} {a : Nat} {v : Byte} (h : s.phase = .idle) (ha : a < s.olen)
    (hv : s.out.read a = some v) : hostReadOut a s = .next (s.observe (.outByte a v)) := by
  simp [hostReadOut, h, ha, hv]

theorem hostReadOut_of_olen_le {s : State} {a : Nat} (h : s.phase = .idle) (ha : s.olen ≤ a) :
    hostReadOut a s = .refused (.outputNotValid a) := by
  simp [hostReadOut, h, Nat.not_lt.2 ha]

/-- Settles O53: below `OLEN` the invariant gives the byte the read answers. -/
theorem outputReadAnswersBelowOlen : Obligations.OutputReadAnswersBelowOlen := by
  intro s a hs hidle
  refine ⟨fun ha => ?below, hostReadOut_of_olen_le hidle⟩
  case below =>
    obtain ⟨v, hv⟩ := Option.isSome_iff_exists.1 (hs.out_read_isSome_iff.2 ha)
    exact ⟨v, hv, hostReadOut_of_read hidle ha hv⟩

end Sys2Proof.Machine

/-! # The command word (30_encoding.md R70, R74, R77) -/

namespace Sys2Proof

/-- The op map gives an operation at its own number only. -/
theorem opNumber_of_opMap {op : BitVec 3} {i : Instr} (h : opMap op = some i) : opNumber i = op := by
  revert op
  cases i <;> decide

/-- A command word is its reserved field followed by its `OP` field. -/
theorem reservedField_append_opField (w : Byte) : reservedField w ++ opField w = w := by
  have h : w.extractLsb' 3 5 ++ w.extractLsb' 0 3 = w.extractLsb' 0 (5 + 3) :=
    BitVec.extractLsb'_append_extractLsb'_eq_extractLsb' rfl
  exact h.trans BitVec.extractLsb'_eq_self

theorem decode_eq_ok {w : Byte} {i : Instr} (h : decode w = .ok i) :
    reservedField w = 0#5 ∧ opMap (opField w) = some i := by
  unfold decode at h
  split at h
  · next hclear =>
    split at h
    · next j hj =>
      cases h
      exact ⟨hclear, hj⟩
    · cases h
  · cases h

/-- A word that decodes is the encoding of its command. -/
theorem encode_of_decode {w : Byte} {i : Instr} (h : decode w = .ok i) : encode i = w := by
  obtain ⟨hclear, hop⟩ := decode_eq_ok h
  rw [encode, opNumber_of_opMap hop, ← hclear, reservedField_append_opField]

theorem encode_toNat_lt (i : Instr) : (encode i).toNat < 6 := by
  cases i <;> decide

namespace Machine

/-- A word that is no command is rejected, by one of the two names of 30_encoding.md R77. -/
theorem decode_eq_error_of_not_wordWellFormed {w : Byte} (h : wordWellFormed w = false) :
    ∃ r, Sys2Proof.decode w = .error r := by
  cases hd : Sys2Proof.decode w with
  | error r => exact ⟨r, rfl⟩
  | ok i =>
    have hwf : wordWellFormed w = true := (decode_eq_ok_iff_wordWellFormed w).1 ⟨i, hd⟩
    simp [h] at hwf

theorem hostWriteCmd_of_reserved {s : State} {w : Byte} (h : s.phase = .idle) (hw : wordWellFormed w = false) :
    hostWriteCmd w.toNat s = .refused (.reservedCommand w.toNat) := by
  obtain ⟨r, hr⟩ := decode_eq_error_of_not_wordWellFormed hw
  have hlt : w.toNat < 256 := w.isLt
  simp [hostWriteCmd, h, hlt, hr]

/-- Settles O2. -/
theorem decodeAndEncodeAgree : Obligations.DecodeAndEncodeAgree :=
  ⟨fun i _ => decode_encode_instr i, fun _ _ h => encode_of_decode h⟩

/-- Settles O1: a word that decoded would be the encoding of a command, and those are below 6. -/
theorem opMapNamesExactlySixWords : Obligations.OpMapNamesExactlySixWords := by
  refine ⟨decode_encode_instr .pack, decode_encode_instr .unpack, decode_encode_instr .padenc,
    decode_encode_instr .paddec, decode_encode_instr .encode, decode_encode_instr .decode, fun w hw => ?reserved⟩
  case reserved =>
    cases hd : Sys2Proof.decode w with
    | error r => exact ⟨r, rfl⟩
    | ok i =>
      have hlt := encode_toNat_lt i
      rw [encode_of_decode hd] at hlt
      omega

/-- Settles O3. -/
theorem reservedCommandWritesAreRefused : Obligations.ReservedCommandWritesAreRefused := by
  intro s w hidle hreserved
  have hw : wordWellFormed w = false := by
    rcases hreserved with hop | hbits
    · rw [wordWellFormed, wordOpAssigned, decide_eq_false (Nat.not_lt.2 hop), Bool.and_false]
    · simp [wordWellFormed, wordReservedClear, hbits]
  exact hostWriteCmd_of_reserved hidle hw

end Machine

end Sys2Proof

/-! # The formats of the groups and of the encoded text (30_encoding.md R62, R68) -/

namespace Sys2Proof.Machine

/-! ## Bits and numbers -/

/-- A word is the sum of its bits at their weights. -/
theorem toNat_eq_sum_bits {n : Nat} (x : BitVec n) :
    x.toNat = ∑ k ∈ Finset.range n, (x.getLsbD k).toNat * 2 ^ k := by
  have hmod (v m : Nat) : v % 2 ^ m = ∑ k ∈ Finset.range m, (v.testBit k).toNat * 2 ^ k := by
    induction m with
    | zero => simp [Nat.mod_one]
    | succ m ih => rw [Finset.sum_range_succ, ← ih, Nat.mod_pow_succ, Nat.toNat_testBit, Nat.mul_comm (2 ^ m)]
  rw [← Nat.mod_eq_of_lt x.isLt, hmod]
  rfl

/-- A byte whose bits from `n` on are 0 is below 2^n. -/
theorem toNat_lt_of_high_bits_clear {b : Byte} {n : Nat} (h : ∀ k, n ≤ k → k < 8 → b.getLsbD k = false) :
    b.toNat < 2 ^ n := by
  refine Nat.lt_pow_two_of_testBit _ fun k hk => ?_
  by_cases h8 : k < 8
  · exact h k hk h8
  · exact BitVec.getLsbD_of_ge b k (by omega)

/-- A byte below 2^k has bit `k` clear. -/
theorem getLsbD_of_toNat_lt {b : Byte} {k : Nat} (h : b.toNat < 2 ^ k) : b.getLsbD k = false :=
  Nat.testBit_lt_two_pow h

/-! ## The layout of a packed group -/

/-- Bit 6 - i of the H byte is the high bit of source byte `i`. -/
theorem getLsbD_pack_y0 (s : G7) (i : Fin 7) : (pack s).y0.getLsbD (6 - i.val) = (s.get i).getLsbD 7 := by
  fin_cases i <;> simp [pack, G7.get]

theorem getLsbD_pack_y0_seven (s : G7) : (pack s).y0.getLsbD 7 = false := by
  simp [pack]

/-- The H byte is the sum of the high bits at their weights. -/
theorem toNat_pack_y0 (s : G7) :
    (pack s).y0.toNat = ∑ i : Fin 7, ((s.get i).getLsbD 7).toNat * 2 ^ (6 - i.val) := by
  calc (pack s).y0.toNat
    _ = ∑ k ∈ Finset.range 7, ((pack s).y0.getLsbD k).toNat * 2 ^ k := by
      rw [toNat_eq_sum_bits, Finset.sum_range_succ, getLsbD_pack_y0_seven, Bool.toNat_false, Nat.zero_mul,
        Nat.add_zero]
    _ = ∑ k ∈ Finset.range 7, ((pack s).y0.getLsbD (6 - k)).toNat * 2 ^ (6 - k) :=
      (Finset.sum_range_reflect (fun k => ((pack s).y0.getLsbD k).toNat * 2 ^ k) 7).symm
    _ = ∑ i : Fin 7, ((s.get i).getLsbD 7).toNat * 2 ^ (6 - i.val) := by
      simp only [Finset.sum_range, getLsbD_pack_y0]

/-- Settles O10. -/
theorem packPlacesEveryBit : Obligations.PackPlacesEveryBit := by
  intro s
  refine ⟨getLsbD_pack_y0_seven s, fun i => ⟨getLsbD_pack_y0 s i, ?clear, fun k hk => ?low⟩, toNat_pack_y0 s⟩
  case clear => rw [pack_get_succ, getLsbD_low7]; simp
  case low => rw [pack_get_succ, getLsbD_low7]; simp [hk]

/-! ## The padding count in an encoded text -/

/-- The first group of the logical stream starts with the padding count. -/
theorem group7At_logical_s0 (B : List Byte) : (group7At (logical B) 0).s0 = BitVec.ofNat 8 (pad B.length) := rfl

theorem toNat_padByte_le (L : Nat) : (BitVec.ofNat 8 (pad L)).toNat ≤ 6 := by
  have := pad_le L
  rw [BitVec.toNat_ofNat]
  omega

/-- The low-bits byte of a byte that is 7-bit clean is the byte itself. -/
theorem low7_of_le {b : Byte} (h : b.toNat ≤ 127) : low7 b = b := by
  refine BitVec.eq_of_getLsbD_eq fun k hk => ?_
  rw [getLsbD_low7]
  by_cases h7 : k = 7
  · rw [h7, getLsbD_of_toNat_lt (by omega), Bool.false_and]
  · simp [show k < 7 by omega]

/-- The first eight bytes of an encoded text are the Pack of the first logical group. -/
theorem getElem?_encodeBytes_first (B : List Byte) {k : Nat} (hk : k < 8) :
    (encodeBytes B)[k]? = (pack (group7At (logical B) 0)).toList[k]? := by
  have h := getElem?_encodeBytes B 0 k hk
  have hpos : 0 < (logical B).length / 7 := by
    have := seven_mul_groups B.length
    rw [length_logical]
    omega
  rwa [if_pos hpos, Nat.mul_zero, Nat.zero_add] at h

/-- The H byte of a group whose first byte is 7-bit clean has bits 7 and 6 clear. -/
theorem toNat_pack_y0_le {s : G7} (h : s.s0.toNat ≤ 127) : (pack s).y0.toNat ≤ 0x3F := by
  have hbits (k : Nat) (h6 : 6 ≤ k) (h8 : k < 8) : (pack s).y0.getLsbD k = false := by
    obtain rfl | rfl : k = 6 ∨ k = 7 := by omega
    · exact (getLsbD_pack_y0 s 0).trans (getLsbD_of_toNat_lt (by simpa [G7.get] using Nat.lt_succ_of_le h))
    · exact getLsbD_pack_y0_seven s
  have := toNat_lt_of_high_bits_clear hbits
  omega

/-- The decoder reads a padding count of at most 6 exactly where the second byte is one and the H byte adds no high
bit. -/
theorem toNat_unpack_s0_le_iff (y : G8) :
    (unpack y).s0.toNat ≤ 6 ↔ y.y1.toNat ≤ 6 ∧ y.y0.getLsbD 6 = false := by
  have hbit (k : Nat) : (unpack y).s0.getLsbD k = (y.y1.getLsbD k || (decide (k = 7) && y.y0.getLsbD 6)) :=
    getLsbD_restore y.y0 y.y1 0 k (by omega)
  cases h6 : y.y0.getLsbD 6 with
  | false =>
    have hs0 : (unpack y).s0 = y.y1 := BitVec.eq_of_getLsbD_eq fun k _ => by
      rw [hbit, h6, Bool.and_false, Bool.or_false]
    simp [hs0]
  | true =>
    have h7 : (unpack y).s0.getLsbD 7 = true := by simp [hbit, h6]
    have hge : 2 ^ 7 ≤ (unpack y).s0.toNat := Nat.ge_two_pow_of_testBit h7
    simp
    omega

/-- Settles O41. -/
theorem paddingCountStandsInTheSecondByte : Obligations.PaddingCountStandsInTheSecondByte := by
  refine ⟨fun B => ?encoder, fun y => ⟨rfl, toNat_unpack_s0_le_iff y⟩⟩
  have hpad : (group7At (logical B) 0).s0.toNat ≤ 127 := (toNat_padByte_le B.length).trans (by omega)
  refine ⟨?second, (pack (group7At (logical B) 0)).y0, getElem?_encodeBytes_first B (by omega), toNat_pack_y0_le hpad⟩
  case second =>
    calc (encodeBytes B)[1]?
      _ = some (low7 (group7At (logical B) 0).s0) := getElem?_encodeBytes_first B (by omega)
      _ = some (BitVec.ofNat 8 (pad B.length)) := by rw [low7_of_le hpad, group7At_logical_s0]

end Sys2Proof.Machine

/-! # The call `encode(B)` as the host makes it (30_encoding.md R81, 70_reset_and_hazards.md R194) -/

namespace Sys2Proof.Machine

/-! ## Runs, move by move -/

/-- The state with the list of moves still to come replaced. -/
def State.withTodo (s : State) (moves : List Move) : State := { s with host := { s.host with todo := moves } }

section
variable {s t : State}

@[simp] theorem State.withTodo_len (moves : List Move) : (s.withTodo moves).len = s.len := rfl
@[simp] theorem State.withTodo_todo (moves : List Move) : (s.withTodo moves).host.todo = moves := rfl

theorem step_of_act {a : HostAction} {rest : List Move} (h : s.host.todo = .act a :: rest) :
    step s = hostAct a (s.withTodo rest) :=
  stepPerformsTheHostsAction s a rest h

/-! The three writes of a call, as steps of an IDLE block. -/

theorem step_of_writeIn {a : Nat} {b : Byte} {rest : List Move} (h : s.host.todo = .act (.writeIn a b) :: rest)
    (hidle : s.phase = .idle) (ha : Config.fits (a + 1) = true) :
    step s = .next ((s.withIn (s.inp.write a b)).withTodo rest) :=
  (step_of_act h).trans (hostWriteIn_of_idle (s := s.withTodo rest) b hidle ha)

theorem step_of_writeLen {n : Nat} {rest : List Move} (h : s.host.todo = .act (.writeReg 1 n) :: rest)
    (hidle : s.phase = .idle) (hn : Config.fits n = true) : step s = .next ((s.withLen n).withTodo rest) :=
  (step_of_act h).trans ((hostWriteLen_of_idle (s := s.withTodo rest) n hidle).trans (if_pos hn))

theorem step_of_writeCmd {i : Instr} {rest : List Move}
    (h : s.host.todo = .act (.writeReg 0 (Sys2Proof.encode i).toNat) :: rest) (hidle : s.phase = .idle) :
    step s = .next ((s.start (Sys2Proof.encode i)).withTodo rest) :=
  (step_of_act h).trans (hostWriteCmd_of_idle (s := s.withTodo rest) hidle (decode_encode_instr i))

theorem step_of_core {i : Instr} {rest : List Move} (h : s.host.todo = .core :: rest) (hbusy : s.phase = .busy)
    (hi : Sys2Proof.decode s.cmd = .ok i) : step s = exec i (s.withTodo rest) := by
  have hstep := stepRunsTheStartedCommand s i (.inr (by simp [h])) hbusy hi
  rwa [h] at hstep

theorem run_succ (n : Nat) (h : step s = .next t) : core.run (n + 1) s = core.run n t := by
  have hstep : core.step s = .next t := h
  simp only [Host.Core.run, hstep]

/-! ## Filling `IN` -/

theorem State.holdsInput.append_byte {B : List Byte} (h : s.holdsInput B) (b : Byte) :
    (s.withIn (s.inp.write B.length b)).holdsInput (B ++ [b]) := by
  intro a ha
  rw [State.withIn_inp]
  rcases Nat.eq_or_lt_of_le (Nat.le_of_lt_succ (by simpa using ha)) with rfl | hlt
  · rw [Memory.read_write_same, List.getElem?_concat_length]
  · rw [Memory.read_write_other _ _ hlt.ne, h a hlt, List.getElem?_append_left hlt]

/-- The writes that fill `IN` put their bytes behind those that stand there, and change nothing else. -/
theorem run_fillMoves (n : Nat) {B C : List Byte} {rest : List Move} (hidle : s.phase = .idle)
    (htodo : s.host.todo = fillMoves C.length B ++ rest) (hfits : Config.fits (C.length + B.length) = true)
    (hC : s.holdsInput C) :
    ∃ m, core.run (B.length + n) s = core.run n ((s.withIn m).withTodo rest) ∧
      (s.withIn m).holdsInput (C ++ B) := by
  induction B generalizing s C with
  | nil =>
    obtain rfl : s.host.todo = rest := htodo
    refine ⟨s.inp, ?_, ?_⟩
    · rw [List.length_nil, Nat.zero_add]
      rfl
    · rwa [List.append_nil]
  | cons b B ih =>
    have hcell : Config.fits (C.length + 1) = true := Config.fits_mono (by simp) hfits
    have hstep := step_of_writeIn htodo hidle hcell
    obtain ⟨m, hrun, hm⟩ := ih
      (s := (s.withIn (s.inp.write C.length b)).withTodo (fillMoves (C.length + 1) B ++ rest)) (C := C ++ [b]) hidle
      (by simp) (by rwa [show (C ++ [b]).length + B.length = C.length + (b :: B).length by simp; omega])
      (hC.append_byte b)
    refine ⟨m, ?_, ?_⟩
    · rw [List.length_cons, Nat.add_right_comm]
      exact (run_succ _ hstep).trans hrun
    · rwa [List.append_assoc] at hm

/-! ## The start and the end of the command -/

/-- After the write of `LEN` and the write of `CMD` the core's move runs the command. -/
theorem run_startMoves {i : Instr} {n : Nat} (hidle : s.phase = .idle)
    (htodo : s.host.todo = [.act (.writeReg 1 n), .act (.writeReg 0 (Sys2Proof.encode i).toNat), .core])
    (hn : Config.fits n = true)
    (ht : exec i (((s.withLen n).start (Sys2Proof.encode i)).withTodo []) = .next t) :
    core.run 3 s = .next t := by
  have hcmd := step_of_writeCmd (i := i) (rest := [.core]) (s := (s.withLen n).withTodo _) rfl hidle
  have hcore := step_of_core (s := ((s.withLen n).start (Sys2Proof.encode i)).withTodo [.core]) rfl rfl
    (decode_encode_instr i)
  exact (run_succ 2 (step_of_writeLen htodo hidle hn)).trans
    ((run_succ 1 hcmd).trans (run_succ 0 (hcore.trans ht)))

/-- A command leaves the block IDLE and the host as it was. -/
theorem Ending.phase_eq {i : Instr} {B : List Byte} (h : Ending i s t B) : t.phase = .idle := by
  rw [h.whole]
  rfl

theorem Ending.host_eq {i : Instr} {B : List Byte} (h : Ending i s t B) : t.host = s.host := by
  rw [h.whole]
  rfl

end

/-- An encoding is longer than what it encodes, so the input fits wherever its encoding does. -/
theorem lt_enclen (L : Nat) : L < enclen L := by
  have := seven_mul_groups L
  rw [enclen_eq_groups]
  omega

/-- Settles O57: the writes fill `IN` with `B`, on which ENCODE leaves its row of the table. -/
theorem encodeCallDeliversTheEncoding : Obligations.EncodeCallDeliversTheEncoding := by
  intro s B hidle htodo hfits
  have hB : Config.fits B.length = true := Config.fits_mono (lt_enclen _).le hfits
  obtain ⟨m, hfill, hin⟩ := run_fillMoves 3 (C := []) hidle htodo (by simpa using hB) (by simp [State.holdsInput])
  obtain ⟨t, ht, hend⟩ := exec_ending (i := .encode) (B := B)
    (s := ((((s.withIn m).withTodo _).withLen B.length).start (Sys2Proof.encode .encode)).withTodo [])
    hin (.inl le_rfl) hfits
  have hrow : t.results = .success (pad B.length) (enclen B.length) (enclen B.length) (encodeBytes B) :=
    hend.results_eq.trans (by simp [tableResults])
  refine ⟨t, hfill.trans (run_startMoves hidle rfl hB ht), hend.phase_eq, ?todo, ?code, ?olen, ?out⟩
  case todo => rw [hend.host_eq, State.withTodo_todo]
  case code => exact congrArg Results.code hrow
  case olen => rw [length_encodeBytes]; exact congrArg Results.olen hrow
  case out => exact congrArg Results.out hrow

end Sys2Proof.Machine

/-! # Pack and Unpack undo each other (40_transpose.md R91 to R96)

Both directions are shown bit by bit: `getLsbD_unpack` gives the bits of an unpacked byte, `pack_get_succ` and
`getLsbD_pack_y0` those of a packed one, and a byte is known from its bit 7 and its bits 6 - i. -/

namespace Sys2Proof

/-- The seven low-bits bytes of an 8-byte group, without the H byte. -/
def G8.lowBytes (y : G8) : G7 := ⟨y.y1, y.y2, y.y3, y.y4, y.y5, y.y6, y.y7⟩

@[simp] theorem G8.lowBytes_get (y : G8) (i : Fin 7) : y.lowBytes.get i = y.get i.succ := by
  fin_cases i <;> rfl

theorem G8.get_succ_with_y0 (y : G8) (h : Byte) (i : Fin 7) : ({ y with y0 := h } : G8).get i.succ = y.get i.succ := by
  fin_cases i <;> rfl

namespace Machine

/-! ## The bits of an unpacked group -/

theorem getLsbD_unpack (y : G8) (i : Fin 7) (k : Nat) : ((unpack y).get i).getLsbD k =
    ((y.get i.succ).getLsbD k || (decide (k = 7) && y.y0.getLsbD (6 - i.val))) := by
  rw [unpack_get, getLsbD_restore _ _ _ _ i.isLt]

/-- Unpack does not look at bit 7 of the H byte. -/
theorem unpack_with_low7_y0 (y : G8) : unpack { y with y0 := low7 y.y0 } = unpack y := by
  refine G7.ext_get fun i => BitVec.eq_of_getLsbD_eq fun k _ => ?_
  have hbit : (low7 y.y0).getLsbD (6 - i.val) = y.y0.getLsbD (6 - i.val) := by
    simp [getLsbD_low7, show 6 - i.val < 7 by omega]
  rw [getLsbD_unpack, getLsbD_unpack, G8.get_succ_with_y0, hbit]

/-- Settles O11. -/
theorem unpackRestoresEveryBit : Obligations.UnpackRestoresEveryBit := by
  refine fun y => ⟨fun i => ⟨?high, fun k hk => ?low⟩, unpack_with_low7_y0 y⟩
  case high => rw [getLsbD_unpack, decide_eq_true rfl, Bool.true_and, Bool.or_comm]
  case low => rw [getLsbD_unpack, decide_eq_false (by omega), Bool.false_and, Bool.or_false]

/-! ## A packed group is 7-bit clean -/

theorem toNat_le_of_bit_seven_clear {b : Byte} (h : b.getLsbD 7 = false) : b.toNat ≤ 0x7F := by
  have hlt : b.toNat < 2 ^ 7 := toNat_lt_of_high_bits_clear fun k h7 h8 => by
    rwa [show k = 7 by omega]
  omega

theorem getLsbD_pack_seven (s : G7) (k : Fin 8) : ((pack s).get k).getLsbD 7 = false := by
  cases k using Fin.cases with
  | zero => exact getLsbD_pack_y0_seven s
  | succ i => rw [pack_get_succ, getLsbD_low7, decide_eq_false (by omega), Bool.and_false]

/-- Settles O14. -/
theorem packedGroupsAreSevenBitClean : Obligations.PackedGroupsAreSevenBitClean :=
  fun s k => toNat_le_of_bit_seven_clear (getLsbD_pack_seven s k)

/-! ## Unpack after Pack -/

/-- Settles O12: the low bits come back from the low-bits byte, bit 7 from the H byte. -/
theorem unpackInvertsPack : Obligations.UnpackInvertsPack := by
  refine fun s => G7.ext_get fun i => BitVec.eq_of_getLsbD_eq fun k hk => ?_
  rw [getLsbD_unpack, pack_get_succ, getLsbD_low7, getLsbD_pack_y0]
  obtain rfl | h7 : k = 7 ∨ k < 7 := by omega
  · simp
  · simp [h7, h7.ne]

/-! ## Pack after Unpack -/

/-- A byte is known from its bit 7 and the seven bits that an H byte holds for the source bytes. -/
theorem eq_of_hByte_bits {a b : Byte} (h7 : a.getLsbD 7 = b.getLsbD 7)
    (h : ∀ i : Fin 7, a.getLsbD (6 - i.val) = b.getLsbD (6 - i.val)) : a = b := by
  refine BitVec.eq_of_getLsbD_eq fun k hk => ?_
  obtain rfl | hk6 : k = 7 ∨ k ≤ 6 := by omega
  · exact h7
  · simpa [Nat.sub_sub_self hk6] using h ⟨6 - k, by omega⟩

theorem getLsbD_pack_unpack_y0 (y : G8) (i : Fin 7) : (pack (unpack y)).y0.getLsbD (6 - i.val) =
    (y.y0.getLsbD (6 - i.val) || (y.get i.succ).getLsbD 7) := by
  rw [getLsbD_pack_y0, getLsbD_unpack, decide_eq_true rfl, Bool.true_and, Bool.or_comm]

/-- Pack after Unpack only clears bit 7 of a low-bits byte (40_transpose.md R95). -/
theorem pack_unpack_get_succ (y : G8) (i : Fin 7) : (pack (unpack y)).get i.succ = low7 (y.get i.succ) := by
  refine BitVec.eq_of_getLsbD_eq fun k _ => ?_
  rw [pack_get_succ, getLsbD_low7, getLsbD_low7, getLsbD_unpack]
  by_cases h7 : k = 7 <;> simp [h7]

/-- Pack after Unpack clears bit 7 of the H byte and moves the high bits of the low-bits bytes into it, where Pack would
put them (40_transpose.md R95). -/
theorem pack_unpack_y0 (y : G8) : (pack (unpack y)).y0 = low7 y.y0 ||| (pack y.lowBytes).y0 := by
  refine eq_of_hByte_bits ?_ fun i => ?_
  · rw [BitVec.getLsbD_or, getLsbD_low7, getLsbD_pack_y0_seven, getLsbD_pack_y0_seven, decide_eq_false (lt_irrefl 7),
      Bool.and_false, Bool.or_false]
  · rw [getLsbD_pack_unpack_y0, BitVec.getLsbD_or, getLsbD_low7, getLsbD_pack_y0, G8.lowBytes_get,
      decide_eq_true (by omega), Bool.and_true]

/-- On a canonical group Pack after Unpack is the identity (40_transpose.md R95). -/
theorem pack_unpack_of_canonical {y : G8} (hy : ∀ k : Fin 8, (y.get k).getLsbD 7 = false) : pack (unpack y) = y := by
  refine G8.ext_get fun k => ?_
  cases k using Fin.cases with
  | zero =>
    refine eq_of_hByte_bits ((getLsbD_pack_seven _ 0).trans (hy 0).symm) fun i => ?_
    exact (getLsbD_pack_unpack_y0 y i).trans (by rw [hy, Bool.or_false]; rfl)
  | succ i =>
    rw [pack_unpack_get_succ, low7_of_le (toNat_le_of_bit_seven_clear (hy i.succ))]

/-- Settles O13. -/
theorem packAfterUnpackCanonicalises : Obligations.PackAfterUnpackCanonicalises := by
  refine ⟨Function.LeftInverse.injective unpackInvertsPack, fun y => ⟨?clean, fun hy => ?image⟩,
    fun y => pack_unpack_of_canonical, fun y => ⟨pack_unpack_get_succ y, ?hByte⟩⟩
  case clean =>
    rintro ⟨s, rfl⟩
    exact getLsbD_pack_seven s
  case image => exact ⟨unpack y, pack_unpack_of_canonical hy⟩
  case hByte =>
    rw [pack_unpack_y0]
    simp [pack, G8.lowBytes, low7, hBit, BitVec.or_assoc]

/-! ## The commands PACK and UNPACK -/

section
variable {s : State}

theorem State.holdsInput.operandG7_toList {w : G7} (h : s.holdsInput w.toList) : s.operandG7 = .ok w :=
  State.operandG7_eq_ok.2 fun i => (h i.val i.isLt).trans (w.toList_getElem? i)

theorem State.holdsInput.operandG8_toList {y : G8} (h : s.holdsInput y.toList) : s.operandG8 0 = .ok y :=
  State.operandG8_eq_ok.2 fun k => by
    rw [Nat.mul_zero, Nat.zero_add, h k.val k.isLt, y.toList_getElem? k]

/-- PACK on a group it can read: the windows are filled, and `OUT` gets the bytes of `W8`. -/
theorem execPack_of_operandG7 {w : G7} (h : s.operandG7 = .ok w) : execPack s = .next
    (State.finish { s.beginCommand.loadPacked w with out := cellsFrom 0 (pack w).toList } 0 8 8) := by
  have hop : s.beginCommand.operandG7 = .ok w := (State.operandG7_congr rfl).trans h
  have hout := State.writeOutList_fresh (s.beginCommand.loadPacked w) (pack w).toList rfl
  simp [execPack, hop, hout, bind, Except.bind, pure, Except.pure]

/-- UNPACK on a group it can read: the windows are filled, and `OUT` gets the bytes of `W7`. -/
theorem execUnpack_of_operandG8 {y : G8} (h : s.operandG8 0 = .ok y) : execUnpack s = .next
    (State.finish { s.beginCommand with w8 := y, w7 := unpack y, out := cellsFrom 0 (unpack y).toList } 0 7 7) := by
  have hop : s.beginCommand.operandG8 0 = .ok y := (State.operandG8_congr rfl 0).trans h
  have hload := State.loadUnpacked_eq_ok.2 ⟨y, hop, rfl⟩
  simp [execUnpack, hload, State.writeOutList_fresh, bind, Except.bind, pure, Except.pure]

end

/-- Settles O18. -/
theorem packCommandPacksTheFirstSevenBytes : Obligations.PackCommandPacksTheFirstSevenBytes :=
  fun _ _ h => execPack_of_operandG7 h.operandG7_toList

/-- Settles O19. -/
theorem unpackCommandUnpacksTheFirstEightBytes : Obligations.UnpackCommandUnpacksTheFirstEightBytes :=
  fun _ _ h => execUnpack_of_operandG8 h.operandG8_toList

end Machine

end Sys2Proof

/-! # The padding arithmetic and the commands PADENC and PADDEC (41_padding.md R110 to R116) -/

namespace Sys2Proof.Machine

/-! ## The padding count and the encoded length -/

/-- The padding fills the logical stream up to whole 7-byte groups (41_padding.md R110). -/
theorem mod_seven_of_padded (L : Nat) : (L + 1 + pad L) % 7 = 0 := by
  rw [← seven_mul_groups, Nat.mul_mod_right]

/-- No other count up to 6 fills the last group: two that do differ by a multiple of 7. -/
theorem eq_pad_of_mod_seven {L P : Nat} (hP : P ≤ 6) (h : (L + 1 + P) % 7 = 0) : P = pad L := by
  have hle := pad_le L
  have hmod := mod_seven_of_padded L
  omega

theorem pad_eq_six_sub (L : Nat) : pad L = 6 - L % 7 :=
  (eq_pad_of_mod_seven (by omega) (by omega)).symm

theorem enclen_eq_closed (L : Nat) : enclen L = 8 * (L / 7 + 1) := by
  have hgroups : (L + 1 + pad L) / 7 = L / 7 + 1 := by
    rw [pad_eq_six_sub]
    omega
  rw [enclen_eq_groups, hgroups]

/-- Settles O16. -/
theorem paddingRoundsUpToSevens : Obligations.PaddingRoundsUpToSevens :=
  fun L => ⟨rfl, pad_le L, mod_seven_of_padded L, pad_eq_six_sub L, fun _ => eq_pad_of_mod_seven, rfl,
    enclen_eq_closed L⟩

/-! ## The length of the input, from the encoded length and the padding count -/

/-- The recovered stream is the prefix byte, the data and the filler: of the 7 bytes a group of 8 gives back, `declen`
takes off just the one prefix byte and the `P` filler bytes. The subtractions in `declen` do not reach below 0. -/
theorem declen_add_prefix_and_filler {N P : Nat} (hN : 8 ≤ N) (hP : P ≤ 6) :
    declen N P + 1 + P = 7 * (N / 8) := by
  unfold declen
  omega

theorem declen_enclen_pad (L : Nat) : declen (enclen L) (pad L) = L := by
  have hlen : 8 ≤ enclen L := by
    rw [enclen_eq_closed]
    omega
  have hstream : declen (enclen L) (pad L) + 1 + pad L = L + 1 + pad L := by
    rw [declen_add_prefix_and_filler hlen (pad_le L), enclen_eq_groups, Nat.mul_div_cancel_left _ (by omega),
      seven_mul_groups]
  omega

theorem pad_declen {N P : Nat} (hN : 8 ≤ N) (hP : P ≤ 6) : pad (declen N P) = P :=
  (eq_pad_of_mod_seven hP (by rw [declen_add_prefix_and_filler hN hP, Nat.mul_mod_right])).symm

theorem enclen_declen {N P : Nat} (hN : 8 ≤ N) (h8 : N % 8 = 0) (hP : P ≤ 6) : enclen (declen N P) = N := by
  rw [enclen_eq_groups, pad_declen hN hP, declen_add_prefix_and_filler hN hP, Nat.mul_div_cancel_left _ (by omega),
    Nat.mul_div_cancel' (Nat.dvd_of_mod_eq_zero h8)]

/-- Settles O17. -/
theorem lengthAndPaddingDetermineEachOther : Obligations.LengthAndPaddingDetermineEachOther := by
  refine ⟨fun L => ⟨(Nat.zero_le L).trans_lt (lt_enclen L), ?multiple, declen_enclen_pad L⟩,
    fun N P hpos h8 hP => ?accepted⟩
  case multiple => rw [enclen_eq_groups, Nat.mul_mod_right]
  case accepted =>
    have hN : 8 ≤ N := by omega
    exact ⟨pad_declen hN hP, enclen_declen hN h8 hP⟩

/-! ## The commands PADENC and PADDEC -/

/-- Settles O20: an admitted PADENC is its whole rule. -/
theorem padencCommandComputesTheSizes : Obligations.PadencCommandComputesTheSizes :=
  fun _ hfits => admitEncoded_of_fits _ hfits

/-- Settles O21, along the four paths of the header checks; only the last two need the group `y`. -/
theorem paddecCommandChecksAndSizes : Obligations.PaddecCommandChecksAndSizes := by
  intro s y hin
  have hgroup (h0 : s.len ≠ 0) (h8 : s.len % 8 = 0) : s.operandG8 0 = .ok y := (hin h0 h8).operandG8_toList
  split_ifs with h0 h8 hp
  · exact readHeader_of_empty h0
  · exact readHeader_of_badLength h8
  · rw [not_not] at h8
    exact (readHeader_of_group h0 h8 (hgroup h0 h8)).trans (if_pos hp)
  · rw [not_not] at h8
    rw [BitVec.ofNat_toNat]
    exact (readHeader_of_group h0 h8 (hgroup h0 h8)).trans (if_neg hp)

end Sys2Proof.Machine

/-! # The message functions and the commands that compute them (42_stream.md R130 to R146)

The bytes of an encoded text and of a recovered logical stream are known group by group (`getElem?_encodeBytes`,
`getElem?_lambda`), so the two functions meet in their groups: group `g` of `encodeBytes B` is the Pack of group `g` of
`logical B`, and group `g` of `lambda S` the Unpack of group `g` of `S`. The commands leave what the functions say. -/

namespace Sys2Proof

theorem G8.mem_toList {y : G8} {b : Byte} : b ∈ y.toList ↔ ∃ k, y.get k = b := by
  rw [List.mem_iff_getElem?]
  constructor
  · rintro ⟨n, hn⟩
    have hlt : n < 8 := (List.getElem?_eq_some_iff.1 hn).1
    exact ⟨⟨n, hlt⟩, Option.some.inj ((y.toList_getElem? ⟨n, hlt⟩).symm.trans hn)⟩
  · rintro ⟨k, rfl⟩
    exact ⟨k, y.toList_getElem? k⟩

namespace Machine

/-! ## The groups of a text and of a stream -/

/-- Lists that agree on every group of `c` indices are equal. -/
theorem eq_of_getElem?_groups {l m : List Byte} {c : Nat} (hc : 0 < c)
    (h : ∀ g k, k < c → l[c * g + k]? = m[c * g + k]?) : l = m :=
  List.ext_getElem? fun n => by
    simpa only [Nat.div_add_mod] using h (n / c) (n % c) (Nat.mod_lt n hc)

/-- The elements of a 7-byte group that lies within the list are those of the list. -/
theorem getElem?_group7At {l : List Byte} {a i : Nat} (hi : i < 7) (ha : a + i < l.length) :
    (group7At l a).toList[i]? = l[a + i]? := by
  rw [G7.toList_getElem? _ ⟨i, hi⟩, group7At_get, List.getD_eq_getElem _ _ ha, List.getElem?_eq_getElem ha]

/-- The elements of an 8-byte group that lies within the list are those of the list. -/
theorem getElem?_group8At {l : List Byte} {a k : Nat} (hk : k < 8) (ha : a + k < l.length) :
    (group8At l a).toList[k]? = l[a + k]? := by
  rw [G8.toList_getElem? _ ⟨k, hk⟩, group8At_get, List.getD_eq_getElem _ _ ha, List.getElem?_eq_getElem ha]

/-- Group `g` of an encoded text is the Pack of group `g` of the logical stream (42_stream.md R130). -/
theorem group8At_encodeBytes (B : List Byte) {g : Nat} (hg : g < (logical B).length / 7) :
    group8At (encodeBytes B) (8 * g) = pack (group7At (logical B) (7 * g)) :=
  G8.ext_get fun k => by
    rw [group8At_get, List.getD_eq_getElem?_getD, getElem?_encodeBytes B g k k.isLt, if_pos hg, G8.toList_getElem?,
      Option.getD_some]

/-- Group `g` of a recovered logical stream is the Unpack of group `g` of the text (42_stream.md R137). -/
theorem group7At_lambda (S : List Byte) {g : Nat} (hg : g < S.length / 8) :
    group7At (lambda S) (7 * g) = unpack (group8At S (8 * g)) :=
  G7.ext_get fun i => by
    rw [group7At_get, List.getD_eq_getElem?_getD, getElem?_lambda S g i i.isLt, if_pos hg, G7.toList_getElem?,
      Option.getD_some]

/-- An 8-byte text is its one group; so is the front of a longer text. -/
theorem group8At_toList_append (y : G8) (T : List Byte) : group8At (y.toList ++ T) 0 = y := rfl

theorem group8At_toList (y : G8) : group8At y.toList 0 = y := rfl

theorem logical_groups_pos (B : List Byte) : 0 < (logical B).length / 7 := by
  have := seven_mul_groups B.length
  rw [length_logical]
  omega

theorem seven_mul_logical_groups (B : List Byte) : 7 * ((logical B).length / 7) = (logical B).length := by
  rw [length_logical, seven_mul_groups]

theorem length_encodeBytes_eq_groups (B : List Byte) : (encodeBytes B).length = 8 * ((logical B).length / 7) := by
  rw [length_encodeBytes, enclen_eq_groups, length_logical]

/-! ## The encoded text -/

/-- Settles O40: the bytes of an encoded text are bytes of packed groups. -/
theorem encodedTextIsCleanAndSized : Obligations.EncodedTextIsCleanAndSized := by
  intro B
  have hlen := length_encodeBytes_eq_groups B
  have hpos := logical_groups_pos B
  refine ⟨by omega, length_encodeBytes B, List.ne_nil_of_length_pos (by omega), fun b hb => ?clean⟩
  case clean =>
    obtain ⟨g, -, hmem⟩ := List.mem_flatMap.1 hb
    obtain ⟨k, rfl⟩ := G8.mem_toList.1 hmem
    exact packedGroupsAreSevenBitClean _ k

/-- A 7-byte group of the logical stream depends on the length of the input and on the input bytes that stand in it
(42_stream.md R135). -/
theorem group7At_logical_congr {B C : List Byte} {a : Nat} (hl : B.length = C.length)
    (h : ∀ j, a ≤ j + 1 → j + 1 < a + 7 → B[j]? = C[j]?) : group7At (logical B) a = group7At (logical C) a := by
  refine G7.ext_get fun i => ?_
  rw [group7At_get, group7At_get, logical_getD, logical_getD, hl]
  split_ifs with h0 hin
  · rfl
  · rw [List.getD_eq_getElem?_getD, List.getD_eq_getElem?_getD, h _ (by omega) (by omega)]
  · rfl

/-- A low-bits byte of a packed group holds the low bits of its own source byte (42_stream.md R135). -/
theorem getElem?_pack_succ (w : G7) {i : Nat} (hi : i < 7) :
    (pack w).toList[i + 1]? = some (low7 (w.get ⟨i, hi⟩)) := by
  rw [← pack_get_succ]
  exact (pack w).toList_getElem? (Fin.succ ⟨i, hi⟩)

/-- Settles O46. -/
theorem encodedGroupsDependOnTheirStretch : Obligations.EncodedGroupsDependOnTheirStretch := by
  refine ⟨fun B C g k hl hk h => ?stretch, fun B g i hi => ?lowBits⟩
  case stretch =>
    rw [getElem?_encodeBytes B g k hk, getElem?_encodeBytes C g k hk, group7At_logical_congr hl h, length_logical,
      length_logical, hl]
  case lowBits =>
    have hgroups := seven_mul_logical_groups B
    rw [Nat.add_assoc, Nat.add_comm 1 i, getElem?_encodeBytes B g (i + 1) (by omega)]
    split_ifs with hg
    · have hin : 7 * g + i < (logical B).length := by omega
      rw [getElem?_pack_succ _ hi, group7At_get, List.getD_eq_getElem _ _ hin, List.getElem?_eq_getElem hin]
      rfl
    · rw [List.getElem?_eq_none (by omega), Option.map_none]

/-! ## The recovered logical stream of an encoded text -/

/-- Decoding recovers the logical stream the encoder built: Unpack undoes Pack in every group (40_transpose.md R94). -/
theorem lambda_encodeBytes (B : List Byte) : lambda (encodeBytes B) = logical B := by
  refine eq_of_getElem?_groups (c := 7) (by omega) fun g i hi => ?_
  have hgroups := seven_mul_logical_groups B
  rw [getElem?_lambda _ g i hi, length_encodeBytes_eq_groups, Nat.mul_div_cancel_left _ (by omega)]
  split_ifs with hg
  · rw [group8At_encodeBytes B hg, unpackInvertsPack, getElem?_group7At hi (by omega)]
  · rw [List.getElem?_eq_none (by omega)]

/-- The decoder reads in an encoded text the padding count the encoder put there. -/
theorem prefixByte_encodeBytes (B : List Byte) : prefixByte (encodeBytes B) = BitVec.ofNat 8 (pad B.length) := by
  have hfirst : group8At (encodeBytes B) 0 = pack (group7At (logical B) 0) :=
    group8At_encodeBytes B (logical_groups_pos B)
  rw [prefixByte, hfirst, unpackInvertsPack, group7At_logical_s0]

theorem toNat_padByte (L : Nat) : (BitVec.ofNat 8 (pad L)).toNat = pad L := by
  have := pad_le L
  rw [BitVec.toNat_ofNat]
  omega

/-- The input stands in the logical stream behind the padding count. -/
theorem trimmed_logical_eq (B : List Byte) : ((logical B).drop 1).take B.length = B := by
  simp [logical]

/-! ## The function `decode`, an equation for each of its paths (42_stream.md R136) -/

section
variable {S D : List Byte}

theorem decodeText_of_empty (h0 : S.length = 0) : decodeText S = .ok [] := by
  simp [decodeText, h0]

theorem decodeText_of_badLength (h8 : S.length % 8 ≠ 0) : decodeText S = .error (.invalidLength S.length) := by
  have h0 : S.length ≠ 0 := fun e => h8 (by rw [e])
  rw [decodeText, if_neg h0, if_pos h8]

theorem decodeText_of_badPrefix (h0 : S.length ≠ 0) (h8 : S.length % 8 = 0) (hp : 7 ≤ (prefixByte S).toNat) :
    decodeText S = .error (.invalidPadding S.length) := by
  rw [decodeText, if_neg h0, if_neg (not_not.2 h8), if_pos hp]

theorem decodeText_of_accepted (h0 : S.length ≠ 0) (h8 : S.length % 8 = 0) (hp : (prefixByte S).toNat ≤ 6) :
    decodeText S = .ok (((lambda S).drop 1).take (declen S.length (prefixByte S).toNat)) := by
  rw [decodeText, if_neg h0, if_neg (not_not.2 h8), if_neg (by omega)]

/-- A text that decodes and is not empty took the last path. -/
theorem accepted_of_decodeText_eq_ok (h0 : S.length ≠ 0) (hd : decodeText S = .ok D) :
    S.length % 8 = 0 ∧ (prefixByte S).toNat ≤ 6 ∧
      D = ((lambda S).drop 1).take (declen S.length (prefixByte S).toNat) := by
  by_cases h8 : S.length % 8 = 0
  · by_cases hp : 7 ≤ (prefixByte S).toNat
    · rw [decodeText_of_badPrefix h0 h8 hp] at hd
      cases hd
    · have hp6 : (prefixByte S).toNat ≤ 6 := by omega
      rw [decodeText_of_accepted h0 h8 hp6] at hd
      cases hd
      exact ⟨h8, hp6, rfl⟩
  · rw [decodeText_of_badLength h8] at hd
    cases hd

/-- An error carries the length of the text (30_encoding.md R69). -/
theorem errorLength_of_decodeText_eq_error {e : DecodeError} (hd : decodeText S = .error e) :
    errorLength e = S.length := by
  unfold decodeText at hd
  split_ifs at hd <;> cases hd <;> rfl

end

/-- Settles O43. -/
theorem onlyTheFirstGroupIsInspected : Obligations.OnlyTheFirstGroupIsInspected := by
  refine ⟨fun S => decodeText_of_badLength, fun S hne => decodeText_of_badPrefix (by simpa using hne),
    fun y T hT hp => ⟨_, decodeText_of_accepted ?nonempty ?length ?first⟩⟩
  case nonempty => simp
  case length => rw [List.length_append, G8.toList_length, Nat.add_mod_left, hT]
  case first => rwa [prefixByte, group8At_toList_append]

/-! ## The round trips of the functions -/

/-- Settles O38: the encoded text is accepted with the encoder's padding count, and its recovered logical stream is the
encoder's. -/
theorem decodeInvertsEncode : Obligations.DecodeInvertsEncode := by
  intro B
  have hlen := length_encodeBytes_eq_groups B
  have hpos := logical_groups_pos B
  have hprefix : (prefixByte (encodeBytes B)).toNat = pad B.length := by
    rw [prefixByte_encodeBytes, toNat_padByte]
  rw [decodeText_of_accepted (by omega) (by omega) (by rw [hprefix]; exact pad_le _), hprefix, lambda_encodeBytes,
    length_encodeBytes, declen_enclen_pad, trimmed_logical_eq]

section
variable {S D : List Byte}

/-- A decoded text's length and padding count are those of the encoding of its data (41_padding.md R116). -/
theorem sizes_of_decodeText_eq_ok (h0 : S.length ≠ 0) (hd : decodeText S = .ok D) :
    pad D.length = (prefixByte S).toNat ∧ enclen D.length = S.length := by
  obtain ⟨h8, hp, rfl⟩ := accepted_of_decodeText_eq_ok h0 hd
  rw [length_trimmed_lambda]
  exact ⟨pad_declen (by omega) hp, enclen_declen (by omega) h8 hp⟩

/-- The recovered logical stream of a decoded text: the padding count, the data, the filler (30_encoding.md R66). -/
theorem lambda_eq_prefix_data_filler (h0 : S.length ≠ 0) (hd : decodeText S = .ok D) :
    lambda S = prefixByte S :: (D ++ (lambda S).drop (1 + D.length)) := by
  obtain ⟨h8, hp, hD⟩ := accepted_of_decodeText_eq_ok h0 hd
  have hhead : (lambda S)[0]? = some (prefixByte S) := by
    have h := getElem?_lambda S 0 0 (by omega)
    rwa [if_pos (by omega)] at h
  have hdata : D = ((lambda S).drop 1).take D.length := by
    rw [hD, length_trimmed_lambda]
  obtain ⟨b, l, hbl⟩ : ∃ b l, lambda S = b :: l := List.exists_cons_of_length_pos (by rw [length_lambda]; omega)
  rw [hbl] at hhead hdata ⊢
  obtain rfl : b = prefixByte S := by simpa using hhead
  rw [Nat.add_comm, List.drop_succ_cons]
  congr 1
  conv_lhs => rw [← List.take_append_drop D.length l]
  congr 1
  exact hdata.symm

/-- The logical stream of the data is the one recovered from the text exactly when the text's filler is zero. -/
theorem logical_eq_lambda_iff (h0 : S.length ≠ 0) (hd : decodeText S = .ok D) :
    logical D = lambda S ↔ ∀ b ∈ (lambda S).drop (1 + D.length), b = 0#8 := by
  obtain ⟨hpad, henc⟩ := sizes_of_decodeText_eq_ok h0 hd
  have hfiller : ((lambda S).drop (1 + D.length)).length = pad D.length := by
    have := seven_mul_groups D.length
    rw [enclen_eq_groups] at henc
    rw [List.length_drop, length_lambda]
    omega
  have hlambda := lambda_eq_prefix_data_filler h0 hd
  have hprefix : BitVec.ofNat 8 (pad D.length) = prefixByte S := by
    rw [hpad, BitVec.ofNat_toNat, BitVec.setWidth_eq]
  generalize (lambda S).drop (1 + D.length) = F at hfiller hlambda ⊢
  calc logical D = lambda S
    _ ↔ F = List.replicate (pad D.length) 0#8 := by
      rw [hlambda, logical, hprefix, List.cons_inj_right, List.append_cancel_left_eq, eq_comm]
      rfl
    _ ↔ ∀ b ∈ F, b = 0#8 := by rw [List.eq_replicate_iff, and_iff_right hfiller]

/-- Where the encoder builds the logical stream of a 7-bit clean text, it writes that text: Pack undoes Unpack in every
canonical group (40_transpose.md R95). -/
theorem encodeBytes_eq_of_logical_eq_lambda (h8 : S.length % 8 = 0) (hclean : ∀ b ∈ S, b.toNat ≤ 0x7F)
    (h : logical D = lambda S) : encodeBytes D = S := by
  refine eq_of_getElem?_groups (c := 8) (by omega) fun g k hk => ?_
  rw [getElem?_encodeBytes D g k hk, h, length_lambda, Nat.mul_div_cancel_left _ (by omega)]
  split_ifs with hg
  · have hcanonical (j : Fin 8) : ((group8At S (8 * g)).get j).getLsbD 7 = false := by
      have hj : 8 * g + j.val < S.length := by omega
      rw [group8At_get, List.getD_eq_getElem _ _ hj]
      exact getLsbD_of_toNat_lt (Nat.lt_succ_of_le (hclean _ (List.getElem_mem hj)))
    rw [group7At_lambda S hg, pack_unpack_of_canonical hcanonical, getElem?_group8At hk (by omega)]
  · rw [List.getElem?_eq_none (by omega)]

end

/-- Settles O42. -/
theorem reencodingRestoresExactlyCanonicalTexts : Obligations.ReencodingRestoresExactlyCanonicalTexts := by
  intro S D hne hd
  have h0 : S.length ≠ 0 := by simpa using hne
  obtain ⟨h8, -, -⟩ := accepted_of_decodeText_eq_ok h0 hd
  obtain ⟨hpad, henc⟩ := sizes_of_decodeText_eq_ok h0 hd
  refine ⟨(length_encodeBytes D).trans henc, ?padding, ?restored, ?canonical⟩
  case padding => rw [prefixByte_encodeBytes, hpad, BitVec.ofNat_toNat, BitVec.setWidth_eq]
  case restored =>
    intro h
    obtain ⟨-, -, -, hclean⟩ := encodedTextIsCleanAndSized D
    rw [h] at hclean
    exact ⟨hclean, (logical_eq_lambda_iff h0 hd).1 (by rw [← lambda_encodeBytes, h])⟩
  case canonical =>
    rintro ⟨hclean, hfiller⟩
    exact encodeBytes_eq_of_logical_eq_lambda h8 hclean ((logical_eq_lambda_iff h0 hd).2 hfiller)

/-! ## ENCODE -/

/-- ENCODE on the bytes `B`: its end, with the row of the table on `encodeBytes B` (42_stream.md R131). -/
theorem exec_encode_ended {s : State} {B : List Byte} (hl : B.length = s.len) (hB : s.holdsInput B)
    (ha : Config.fits (enclen s.len) = true) :
    ∃ v7 v8, exec .encode s = .next (s.ended v7 v8 (enclen s.len / 8)
      (.success (pad s.len) (enclen s.len) (enclen s.len) (encodeBytes B))) := by
  obtain ⟨v, hrun, hv⟩ := encodeGroups_writes hB hl
  have hE := enclen_eq_groups s.len
  generalize hG : (s.len + 1 + pad s.len) / 7 = G at hrun hE
  have hend := (hv.withGi G).finish_eq (pad s.len) (8 * G) (8 * G)
  refine ⟨v.w7, v.w8, ?_⟩
  rw [hE, Nat.mul_div_cancel_left _ (by omega)]
  simp [exec, execEncode, admitEncoded_of_fits _ ha, hrun, bind, Except.bind, pure, Except.pure, hG, hend]

/-- Settles O22. -/
theorem encodeCommandComputesEncode : Obligations.EncodeCommandComputesEncode :=
  fun _ _ hl hB ha => exec_encode_ended hl hB ha

/-! ## DECODE -/

/-- The row of the table that the function `decode` gives for the text `S` (42_stream.md R139). -/
def decodeRow (S : List Byte) : Results :=
  match decodeText S with
  | .ok D => .success (if S.length = 0 then 0 else (prefixByte S).toNat) D.length D.length D
  | .error e => .failure e

section
variable {s : State} {S D : List Byte}

theorem decodeRow_of_ok (h0 : S.length ≠ 0) (hd : decodeText S = .ok D) :
    decodeRow S = .success (prefixByte S).toNat D.length D.length D := by
  simp only [decodeRow, hd, if_neg h0]

/-- The row of DECODE is the result of the function `decode`, on each of its paths. -/
theorem tableResults_decode (S : List Byte) : tableResults .decode S.length S = decodeRow S := by
  by_cases h0 : S.length = 0
  · simp [tableResults, decodeRow, decodeText_of_empty h0, h0]
  by_cases h8 : S.length % 8 = 0
  · by_cases hp : 7 ≤ (prefixByte S).toNat
    · simp [tableResults, decodeRow, decodeText_of_badPrefix h0 h8 hp, h0, h8, hp]
    · have hp6 : (prefixByte S).toNat ≤ 6 := by omega
      rw [tableResults_decode_accepted h0 h8 hp6, decodeRow_of_ok h0 (decodeText_of_accepted h0 h8 hp6),
        List.take_length, length_trimmed_lambda]
  · simp [tableResults, decodeRow, decodeText_of_badLength h8, h0, h8]

/-- DECODE of the text `S`: its end, with the row the function `decode` gives. A text of a bad length is not read. -/
theorem exec_decode_ended (hl : S.length = s.len) (hS : s.len % 8 = 0 → s.holdsInput S) :
    ∃ v7 v8 g, exec .decode s = .next (s.ended v7 v8 g (decodeRow S)) := by
  by_cases h8 : s.len % 8 = 0
  · obtain ⟨t, ht, hend⟩ := execDecode_ending (hS h8) fun _ _ => .inl hl.ge
    rw [← tableResults_decode, hl]
    exact ⟨_, _, _, ht.trans (congrArg _ hend.whole)⟩
  · have hbegin : s.Wrote s.beginCommand [] := ⟨rfl⟩
    rw [decodeRow, decodeText_of_badLength (hl ▸ h8), hl]
    exact ⟨_, _, _, (readHeader_of_badLength h8).trans (congrArg _ (hbegin.raise_eq _))⟩

/-- DECODE of a text that is not empty and decodes to `D`. -/
theorem exec_decode_of_ok (hl : S.length = s.len) (h0 : s.len ≠ 0) (hS : s.holdsInput S) (hd : decodeText S = .ok D) :
    ∃ v7 v8 g, exec .decode s =
      .next (s.ended v7 v8 g (.success (prefixByte S).toNat D.length D.length D)) := by
  rw [← decodeRow_of_ok (hl ▸ h0) hd]
  exact exec_decode_ended hl fun _ => hS

end

/-- Settles O23. -/
theorem decodeCommandComputesDecode : Obligations.DecodeCommandComputesDecode := by
  intro s S hl hS
  obtain ⟨v7, v8, g, ht⟩ := exec_decode_ended hl hS
  refine ⟨v7, v8, g, ht.trans (congrArg _ ?_)⟩
  rw [decodeRow]
  cases hd : decodeText S with
  | ok D =>
    simp only [hl, State.ended, Results.success, apply_ite (BitVec.ofNat 3)]
    rfl
  | error e =>
    simp only [State.ended, Results.failure, errorLength_of_decodeText_eq_error hd, hl]

/-- Settles O24: a success of a text that is not empty is that of an accepted text. -/
theorem decodeWritesTheTrimmedStream : Obligations.DecodeWritesTheTrimmedStream := by
  intro s t S hl h0 hS ht hok
  cases hd : decodeText S with
  | error e =>
    obtain ⟨v7, v8, g, hrun⟩ := exec_decode_ended hl fun _ => hS
    rw [decodeRow, hd, ht] at hrun
    cases hrun
    cases e <;> cases hok
  | ok D =>
    obtain ⟨v7, v8, g, hrun⟩ := exec_decode_of_ok hl h0 hS hd
    obtain rfl : t = _ := Host.Outcome.next.inj (ht.symm.trans hrun)
    obtain ⟨-, -, hD⟩ := accepted_of_decodeText_eq_ok (hl ▸ h0) hd
    have hlen : D.length = declen s.len (prefixByte S).toNat := by rw [hD, length_trimmed_lambda, hl]
    refine ⟨?olen, fun m => ?cell⟩
    case olen =>
      show D.length = _
      rw [hlen, declen, Nat.mul_comm]
    case cell =>
      show Memory.read (cellsFrom 0 D) m = if m < D.length then _ else none
      rw [read_cellsFrom_zero, hlen, hD, List.getElem?_take, List.getElem?_drop, Nat.add_comm 1, hl]

/-- Settles O39: DECODE finds the encoded text in `IN`, which decodes to what ENCODE read. -/
theorem decodeCommandUndoesEncodeCommand : Obligations.DecodeCommandUndoesEncodeCommand := by
  intro s t u ht hlen hcells
  obtain ⟨hfits, hwritten⟩ := execEncode_ready ht
  obtain ⟨B, hl, hB⟩ := hwritten.exists_bytes
  obtain ⟨v7, v8, hrun⟩ := exec_encode_ended hl hB hfits
  obtain rfl : t = _ := Host.Outcome.next.inj (ht.symm.trans hrun)
  have hE : (encodeBytes B).length = enclen s.len := by rw [length_encodeBytes, hl]
  have hulen : u.len = enclen s.len := hlen
  have hin : u.holdsInput (encodeBytes B) := fun a ha =>
    (hcells a (hE ▸ ha)).trans (read_cellsFrom_zero (encodeBytes B) a)
  have h0 : u.len ≠ 0 := by
    have := lt_enclen s.len
    omega
  obtain ⟨w7, w8, g, hdec⟩ := exec_decode_of_ok (hE.trans hulen.symm) h0 hin (decodeInvertsEncode B)
  refine ⟨_, hdec, rfl, hl, ?pad, fun a ha => ?cell⟩
  case pad =>
    show BitVec.ofNat 3 (prefixByte (encodeBytes B)).toNat = BitVec.ofNat 3 (pad s.len)
    rw [prefixByte_encodeBytes, toNat_padByte, hl]
  case cell => exact (read_cellsFrom_zero B a).trans (hB a (hl ▸ ha)).symm

/-! ## One-group texts and the empty output -/

/-- A text of one group gives the first data bytes of the unpacked group (42_stream.md R142). -/
theorem decodeText_toList {y : G8} (hp : (unpack y).s0.toNat ≤ 6) :
    decodeText y.toList = .ok (((unpack y).toList.drop 1).take (6 - (unpack y).s0.toNat)) := by
  have hM : declen y.toList.length (prefixByte y.toList).toNat = 6 - (unpack y).s0.toNat := by
    rw [G8.toList_length, declen, prefixByte, group8At_toList]
  have h8 : y.toList.length % 8 = 0 := by rw [G8.toList_length]
  rw [decodeText_of_accepted (by simp) h8 hp, hM, lambda_of_one_group y.toList_length, group8At_toList]

/-- DECODE of a text of one group with an accepted padding count: its end, whatever the bytes that are dropped. -/
theorem exec_decode_one_group {s : State} {y : G8} (hl : s.len = 8) (hy : s.holdsInput y.toList)
    (hp : (unpack y).s0.toNat ≤ 6) : ∃ v7 v8 g, exec .decode s = .next (s.ended v7 v8 g
      (.success (unpack y).s0.toNat (6 - (unpack y).s0.toNat) (6 - (unpack y).s0.toNat)
        (((unpack y).toList.drop 1).take (6 - (unpack y).s0.toNat)))) := by
  have hrun := exec_decode_of_ok (y.toList_length.trans hl.symm) (by omega) hy (decodeText_toList hp)
  rwa [List.length_take, List.length_drop, G7.toList_length, Nat.min_eq_left (by omega)] at hrun

/-- Settles O45. -/
theorem oneGroupTextsAreTruncated : Obligations.OneGroupTextsAreTruncated := by
  intro s y hl hy hp
  obtain ⟨v7, v8, g, hrun⟩ := exec_decode_one_group hl hy hp
  refine ⟨_, hrun, rfl, ?pad, rfl, rfl⟩
  case pad =>
    show (BitVec.ofNat 3 (unpack y).s0.toNat).toNat = (unpack y).s0.toNat
    rw [BitVec.toNat_ofNat]
    omega

/-- Settles O44. -/
theorem emptyInputAndEmptyText : Obligations.EmptyInputAndEmptyText := by
  refine ⟨fun s h0 => ?encode, fun s h0 => ?emptyText, fun s y hl hy hp => ?noData, rfl⟩
  case encode =>
    obtain ⟨v7, v8, hrun⟩ := exec_encode_ended (s := s) (B := []) h0.symm (by simp [State.holdsInput])
      (Config.fits_of_le_eight (by rw [h0]; decide))
    rw [h0] at hrun
    exact ⟨_, hrun, rfl, rfl, rfl, rfl, rfl⟩
  case emptyText => exact ⟨_, readHeader_of_empty h0, rfl, rfl, rfl, rfl, rfl, rfl⟩
  case noData =>
    obtain ⟨v7, v8, g, hrun⟩ := exec_decode_one_group hl hy (by rw [hp]; decide)
    rw [hp] at hrun
    exact ⟨_, hrun, rfl, rfl, rfl, rfl, rfl, rfl⟩

end Machine

end Sys2Proof

/-! # The errors of the decoder and the IDLE block (60_exceptions.md R160 to R176)

PADDEC and DECODE begin with the same checks (`readHeader`), so the ways they fail are read off the checks alone. Which
error a command reports is read off the row of the table it ends with. -/

namespace Sys2Proof.Machine

/-! ## The two errors -/

/-- PADDEC and DECODE differ only in what follows the header checks. -/
theorem exec_decoder_eq_readHeader {i : Instr} (hi : i = .paddec ∨ i = .decode) (s : State) :
    ∃ k, exec i s = readHeader s k := by
  rcases hi with rfl | rfl <;> exact ⟨_, rfl⟩

/-- Settles O25. -/
theorem decodersRejectABadLength : Obligations.DecodersRejectABadLength := by
  intro i s hi h8
  obtain ⟨k, hk⟩ := exec_decoder_eq_readHeader hi s
  exact hk.trans (readHeader_of_badLength h8)

/-- Settles O26: the checks stop at the first group, with that group in the windows. -/
theorem decodersRejectABadPaddingCount : Obligations.DecodersRejectABadPaddingCount := by
  intro i s y hi h0 h8 hy hp
  obtain ⟨k, hk⟩ := exec_decoder_eq_readHeader hi s
  calc exec i s = readHeader s k := hk
    _ = _ := readHeader_of_group h0 h8 hy.operandG8_toList
    _ = _ := if_pos hp

/-! ## Which error a command reports -/

theorem State.operandG8_zero_eq_ok_iff_holdsInput {s : State} {y : G8} :
    s.operandG8 0 = .ok y ↔ s.holdsInput y.toList := by
  refine ⟨fun h a ha => ?_, State.holdsInput.operandG8_toList⟩
  have hcell := State.operandG8_eq_ok.1 h ⟨a, ha⟩
  rw [Nat.mul_zero, Nat.zero_add] at hcell
  rw [hcell, y.toList_getElem? ⟨a, ha⟩]

/-- The first group of `IN` is one group only: its prefix byte is the one of the bytes `IN` holds. -/
theorem State.holdsInput.badPrefix_iff {s : State} {B : List Byte} (hB : s.holdsInput B) (hl : 8 ≤ B.length) :
    s.badPrefix ↔ 7 ≤ (prefixByte B).toNat := by
  have hgroup : s.operandG8 0 = .ok (group8At B 0) := hB.operandG8 (g := 0) hl
  constructor
  · rintro ⟨y, hy, hp⟩
    obtain rfl : group8At B 0 = y := Except.ok.inj (hgroup.symm.trans hy.operandG8_toList)
    exact hp
  · exact fun hp => ⟨_, State.operandG8_zero_eq_ok_iff_holdsInput.1 hgroup, hp⟩

theorem coversInput.eight_le_length {i : Instr} {s : State} {B : List Byte} (hc : coversInput i s B)
    (hi : i = .paddec ∨ i = .decode) (h0 : s.len ≠ 0) (h8 : s.len % 8 = 0) : 8 ≤ B.length := by
  rcases hc with hl | ⟨-, -, -, hl, -⟩
  · rcases hi with rfl | rfl
    · simpa [inputBound, h0, h8] using hl
    · have hlen : s.len ≤ B.length := by simpa [inputBound, h8] using hl
      omega
  · exact hl

/-- The result code in the rows of PADDEC and DECODE, in the order of the checks (60_exceptions.md R165). -/
theorem tableResults_decoder_code {i : Instr} (hi : i = .paddec ∨ i = .decode) (n : Nat) (B : List Byte) :
    (tableResults i n B).code =
      if n = 0 then .ok
      else if n % 8 ≠ 0 then .invalidLength
      else if 7 ≤ (prefixByte B).toNat then .invalidPadding
      else .ok := by
  rcases hi with rfl | rfl <;> simp only [tableResults] <;> split_ifs <;> rfl

/-- Settles O27, along the order of the checks. -/
theorem errorsFollowTheOrderOfTheChecks : Obligations.ErrorsFollowTheOrderOfTheChecks := by
  intro i s t hi ht
  obtain ⟨B, -, hB, hc, hend⟩ := exec_next_ending ht
  have hcode : t.code = (tableResults i s.len B).code := congrArg Results.code hend.results_eq
  rw [hcode, tableResults_decoder_code hi]
  by_cases h0 : s.len = 0
  · simp [h0]
  by_cases h8 : s.len % 8 = 0
  · rw [hB.badPrefix_iff (hc.eight_le_length hi h0 h8)]
    by_cases hp : 7 ≤ (prefixByte B).toNat <;> simp [h0, h8, hp]
  · simp [h0, h8]

/-- Settles O28: the rows of these four commands are all rows of a success. -/
theorem otherCommandsNeverFail : Obligations.OtherCommandsNeverFail := by
  intro i s t hi ht
  obtain ⟨B, -, -, -, hend⟩ := exec_next_ending ht
  rw [hend.whole]
  rcases hi with rfl | rfl | rfl | rfl <;> exact ⟨rfl, rfl⟩

/-! ## The IDLE block

Of the host's actions only a write of `CMD` takes an IDLE block to BUSY. -/

section
variable {s t : State}

theorem hostWriteCmd_cmd {v : Nat} (h : hostWriteCmd v s = .next t) :
    wordWellFormed t.cmd = true ∧ t.cmd.toNat = v := by
  unfold hostWriteCmd at h
  split at h
  · cases h
  · split at h
    · next hlt =>
      split at h
      · next i hi =>
        cases h
        exact ⟨(decode_eq_ok_iff_wordWellFormed _).1 ⟨i, hi⟩, Nat.mod_eq_of_lt hlt⟩
      · cases h
    · cases h

theorem hostWriteReg_keeps_idle {n v : Nat} (hidle : s.phase = .idle) (hn : n ≠ 0)
    (h : hostWriteReg n v s = .next t) : t.phase = .idle := by
  rcases (by omega : n = 1 ∨ 2 ≤ n ∧ n ≤ 6 ∨ 7 ≤ n) with rfl | ⟨h2, h6⟩ | h7
  · rw [hostWriteReg, hostWriteLen_of_idle v hidle] at h
    split at h <;> cases h
    exact hidle
  · rw [hostWriteReg_of_readOnly v h2 h6] at h
    cases h
    exact hidle
  · rw [(hostReg_of_seven_le v h7).1] at h
    cases h

/-- While IDLE every register answers a read, which only adds to the host's record. -/
theorem hostReadReg_of_idle {n : Nat} (hidle : s.phase = .idle) (hn : n < 7) :
    ∃ o, hostReadReg n s = .next (s.observe o) := by
  interval_cases n
  exacts [⟨_, rfl⟩, ⟨_, rfl⟩, ⟨_, hostReadStatus_of_idle hidle⟩, ⟨_, hostReadResult_of_idle 3 _ hidle⟩,
    ⟨_, hostReadResult_of_idle 4 _ hidle⟩, ⟨_, hostReadResult_of_idle 5 _ hidle⟩,
    ⟨_, hostReadResult_of_idle 6 _ hidle⟩]

theorem hostReadReg_keeps_idle {n : Nat} (hidle : s.phase = .idle) (h : hostReadReg n s = .next t) :
    t.phase = .idle := by
  rcases Nat.lt_or_ge n 7 with hn | hn
  · obtain ⟨o, ho⟩ := hostReadReg_of_idle hidle hn
    obtain rfl : s.observe o = t := Host.Outcome.next.inj (ho.symm.trans h)
    exact hidle
  · rw [(hostReg_of_seven_le 0 hn).2] at h
    cases h

theorem hostWriteIn_keeps_idle {a : Nat} {v : Byte} (hidle : s.phase = .idle) (h : hostWriteIn a v s = .next t) :
    t.phase = .idle := by
  simp only [hostWriteIn, hidle] at h
  split at h <;> cases h
  exact hidle

theorem hostReadOut_keeps_idle {a : Nat} (hidle : s.phase = .idle) (h : hostReadOut a s = .next t) :
    t.phase = .idle := by
  rcases Nat.lt_or_ge a s.olen with ha | ha
  · cases hv : s.out.read a with
    | some v =>
      rw [hostReadOut_of_read hidle ha hv] at h
      cases h
      exact hidle
    | none => simp [hostReadOut, hidle, ha, hv] at h
  · rw [hostReadOut_of_olen_le hidle ha] at h
    cases h

theorem hostAct_starts_by_cmd_write {a : HostAction} (hidle : s.phase = .idle) (h : hostAct a s = .next t)
    (hbusy : t.phase = .busy) : ∃ v, a = .writeReg 0 v ∧ wordWellFormed t.cmd = true ∧ t.cmd.toNat = v := by
  have not_idle : t.phase ≠ .idle := by simp [hbusy]
  cases a with
  | writeReg n v =>
    by_cases hn : n = 0
    · subst hn
      exact ⟨v, rfl, hostWriteCmd_cmd h⟩
    · exact absurd (hostWriteReg_keeps_idle hidle hn h) not_idle
  | readReg n => exact absurd (hostReadReg_keeps_idle hidle h) not_idle
  | writeIn a v => exact absurd (hostWriteIn_keeps_idle hidle h) not_idle
  | readOut a => exact absurd (hostReadOut_keeps_idle hidle h) not_idle
  | reset =>
    cases h
    cases hbusy

end

/-- Settles O6: a core move leaves the phase IDLE, and so does every action but a write of `CMD`. -/
theorem idleBlockWaitsForACommandWrite : Obligations.IdleBlockWaitsForACommandWrite := by
  refine ⟨fun s hidle hmove => ?coreMoves, fun s t hidle ht hbusy => ?starts⟩
  case coreMoves =>
    obtain ⟨u, rfl, ⟨-, hcore⟩ | ⟨a, hact, -⟩⟩ := step_cases s
    · rw [hcore]
      exact coreMove_of_idle hidle
    · rcases hmove with h | h <;> simp [h] at hact
  case starts =>
    obtain ⟨u, hu, hmove⟩ := step_cases s
    have huidle : u.phase = .idle := by rw [hu]; exact hidle
    rcases hmove with ⟨-, hcore⟩ | ⟨a, hhead, hact⟩
    · rw [hcore, coreMove_of_idle huidle] at ht
      cases ht
      cases huidle.symm.trans hbusy
    · obtain ⟨v, rfl, hcmd⟩ := hostAct_starts_by_cmd_write huidle (hact.symm.trans ht) hbusy
      obtain ⟨rest, hrest⟩ := List.head?_eq_some_iff.1 hhead
      exact ⟨v, rest, hrest, hcmd⟩

end Sys2Proof.Machine

/-! # What ends, what is refused and what faults (70_reset_and_hazards.md R190 to R205)

A command answers in one of three ways: a next state where it is admitted and its input is written, a refusal where it is
not admitted, and else the fault of the first cell of `IN` without a value. An action of the host answers a next state
exactly where the host may make it. -/

namespace Sys2Proof.Machine

/-! ## When a command ends -/

theorem exec_next_of_ready {i : Instr} {s : State} (ha : admitted i s = true) (hr : inputReady i s) :
    ∃ t, exec i s = .next t := by
  obtain ⟨B, -, hB, hc⟩ := hr.exists_bytes
  obtain ⟨t, ht, -⟩ := exec_ending hB hc ha
  exact ⟨t, ht⟩

/-- Settles O31: a command that ended was admitted and has read its input, and on any bytes that let it run it ends. -/
theorem commandsEndExactlyWhenReady : Obligations.CommandsEndExactlyWhenReady :=
  fun _ _ => ⟨fun ⟨_, ht⟩ => exec_next_ready ht, fun ⟨ha, hr⟩ => exec_next_of_ready ha hr⟩

/-! ## When a command is refused -/

/-- The admission refuses, and what follows it does not. -/
theorem admitEncoded_eq_refused_iff {s : State} {k : Outcome} {r : Refusal} (hk : k ≠ .refused r) :
    admitEncoded s k = .refused r ↔ Config.fits (enclen s.len) = false ∧ r = .lengthTooLong (enclen s.len) := by
  cases hf : Config.fits (enclen s.len) with
  | true => simp [admitEncoded_of_fits k hf, hk]
  | false => simp [admitEncoded_of_not_fits k hf, eq_comm]

theorem readHeader_ne_refused {s : State} {k : State → Outcome} {r : Refusal} (hk : ∀ u, k u ≠ .refused r) :
    readHeader s k ≠ .refused r := by
  rcases readHeader_cases s k with ⟨-, h⟩ | ⟨-, h⟩ | ⟨-, -, f, -, h⟩ | ⟨-, -, y, -, -, h⟩ | ⟨-, -, y, -, -, h⟩
  iterate 4
    · simp [h]
  · rw [h]
    exact hk _

theorem execPadenc_eq_refused_iff {s : State} {r : Refusal} : execPadenc s = .refused r ↔
    Config.fits (enclen s.len) = false ∧ r = .lengthTooLong (enclen s.len) :=
  admitEncoded_eq_refused_iff (by nofun)

theorem execEncode_eq_refused_iff {s : State} {r : Refusal} : execEncode s = .refused r ↔
    Config.fits (enclen s.len) = false ∧ r = .lengthTooLong (enclen s.len) :=
  admitEncoded_eq_refused_iff conclude_ne_refused

/-- Settles O32: the admission is the only refusal in a command. -/
theorem overlongEncodingsAreRefused : Obligations.OverlongEncodingsAreRefused := by
  intro i s r
  cases i with
  | pack => exact iff_of_false conclude_ne_refused (by simp)
  | unpack => exact iff_of_false conclude_ne_refused (by simp)
  | padenc => exact execPadenc_eq_refused_iff.trans (by simp)
  | paddec => exact iff_of_false (readHeader_ne_refused fun _ => nofun) (by simp)
  | encode => exact execEncode_eq_refused_iff.trans (by simp)
  | decode => exact iff_of_false (readHeader_ne_refused fun _ => conclude_ne_refused) (by simp)

/-! ## When a command faults

A command takes its groups in rising order, so the first group it cannot read holds the first cell without a value. -/

/-- `f` is the fault of the first cell of `IN` without a value, a cell below `n`. -/
def State.FirstMissing (s : State) (n : Nat) (f : Fault) : Prop :=
  ∃ a < n, s.inp.read a = none ∧ f = missingIn a ∧ s.inputWritten a

section
variable {s : State} {f : Fault}

theorem bind_eq_error_iff {α β : Type} {x : Except Fault α} {k : α → Except Fault β} :
    (x >>= k) = .error f ↔ x = .error f ∨ ∃ a, x = .ok a ∧ k a = .error f := by
  cases x <;> simp [bind, Except.bind]

/-- The first group of `IN` that cannot be read. -/
theorem State.FirstMissing.of_operandG8 {g n : Nat} (he : s.operandG8 g = .error f)
    (hbelow : ∀ j < g, ∃ y, s.operandG8 j = .ok y) (hn : 8 * g + 8 ≤ n) : s.FirstMissing n f := by
  obtain ⟨k, hk, hnone, hf, hk'⟩ := State.operandG8_eq_error he
  refine ⟨8 * g + k, by omega, hnone, hf, fun a ha => ?_⟩
  rcases Nat.lt_or_ge a (8 * g) with hlt | hge
  · exact State.inputWritten_of_groups hbelow a hlt
  · rw [← Nat.add_sub_cancel' hge]
    exact hk' _ (by omega)

/-- The first logical group that cannot be read. -/
theorem State.FirstMissing.of_logicalGroup {L P g : Nat} (he : s.logicalGroup L P g = .error f)
    (hbelow : ∀ j < g, ∃ w, s.logicalGroup L P j = .ok w) : s.FirstMissing L f := by
  obtain ⟨i, hi, hbyte, hi'⟩ := collect7_eq_error he
  obtain ⟨h0, hL, hnone, hf⟩ := State.logicalByte_eq_error hbyte
  have hbytes : ∀ j < 7 * g + i, ∃ v, s.logicalByte L P j = .ok v := fun j hj => by
    rcases Nat.lt_or_ge j (7 * g) with hlt | hge
    · obtain ⟨w, hw⟩ := hbelow (j / 7) (by omega)
      have hv := collect7_eq_ok.1 hw ⟨j % 7, by omega⟩
      rw [Nat.div_add_mod] at hv
      exact ⟨_, hv⟩
    · rw [← Nat.add_sub_cancel' hge]
      exact hi' _ (by omega)
  refine ⟨7 * g + i - 1, by omega, hnone, hf, fun a ha => ?_⟩
  obtain ⟨v, hv⟩ := hbytes (a + 1) (by omega)
  have hr : s.inp.read a = some v := State.logicalByte_eq_ok hv (by omega) (by omega)
  rw [hr, Option.isSome_some]

theorem execPack_eq_fault (h : execPack s = .fault f) : s.FirstMissing 7 f := by
  rcases bind_eq_error_iff.1 (conclude_eq_fault.1 h) with hw | ⟨w, -, hret⟩
  · exact State.operandG7_eq_error (s := s) hw
  · cases hret

theorem execUnpack_eq_fault (h : execUnpack s = .fault f) : s.FirstMissing 8 f := by
  rcases bind_eq_error_iff.1 (conclude_eq_fault.1 h) with hload | ⟨u, -, hret⟩
  · have he : s.operandG8 0 = .error f :=
      (State.operandG8_congr (s := s) (t := s.beginCommand) rfl 0).symm.trans (State.loadUnpacked_eq_error.1 hload)
    exact .of_operandG8 he nofun le_rfl
  · cases hret

/-- The header checks fault at the first group, or what follows them faults. -/
theorem readHeader_eq_fault {k : State → Outcome} (h : readHeader s k = .fault f) :
    s.len ≠ 0 ∧ s.len % 8 = 0 ∧ (s.operandG8 0 = .error f ∨
      ∃ y, s.operandG8 0 = .ok y ∧ k { s.beginCommand with w8 := y, w7 := unpack y } = .fault f) := by
  rcases readHeader_cases s k with ⟨-, hk⟩ | ⟨-, hk⟩ | ⟨h0, h8, e, he, hk⟩ | ⟨-, -, y, -, -, hk⟩ | ⟨h0, h8, y, hy, -, hk⟩
  · cases hk.symm.trans h
  · cases hk.symm.trans h
  · cases hk.symm.trans h
    exact ⟨h0, h8, .inl he⟩
  · cases hk.symm.trans h
  · exact ⟨h0, h8, .inr ⟨y, hy, hk.symm.trans h⟩⟩

theorem execPaddec_eq_fault (h : execPaddec s = .fault f) :
    s.len ≠ 0 ∧ s.len % 8 = 0 ∧ s.FirstMissing 8 f := by
  obtain ⟨h0, h8, he | ⟨y, -, hk⟩⟩ := readHeader_eq_fault h
  · exact ⟨h0, h8, .of_operandG8 he nofun le_rfl⟩
  · cases hk

theorem execEncode_eq_fault (h : execEncode s = .fault f) : s.FirstMissing s.len f := by
  have hrun : encodeGroups s.len (pad s.len) ((s.len + 1 + pad s.len) / 7) 0 s.beginCommand = .error f := by
    cases hf : Config.fits (enclen s.len) with
    | false =>
      rw [execEncode, admitEncoded_of_not_fits _ hf] at h
      cases h
    | true =>
      rw [execEncode, admitEncoded_of_fits _ hf] at h
      rcases bind_eq_error_iff.1 (conclude_eq_fault.1 h) with he | ⟨u, -, hret⟩
      · exact he
      · cases hret
  obtain ⟨g, -, -, he, hbelow⟩ := encodeGroups_eq_error hrun
  exact .of_logicalGroup (s := s) he fun j hj => hbelow j (Nat.zero_le j) hj

/-- Steps 4 to 7 of DECODE fault at their first group that cannot be read. -/
theorem decodeData_eq_error {G P : Nat} (h : decodeData G P s = .error f) :
    ∃ g, 1 ≤ g ∧ g < G ∧ s.operandG8 g = .error f ∧ ∀ j, 1 ≤ j → j < g → ∃ y, s.operandG8 j = .ok y := by
  have hinp : (decodeFirst (7 * G - 1 - P) s).inp = s.inp := State.writeOutList_inp _ _ _
  rcases bind_eq_error_iff.1 h with hmiddle | ⟨u, hmiddle, hlast⟩
  · obtain ⟨g, h1, hg, he, hbelow⟩ := decodeMiddle_eq_error hmiddle
    refine ⟨g, h1, by omega, (State.operandG8_congr hinp g).symm.trans he, fun j hj hjg => ?_⟩
    rw [← State.operandG8_congr hinp]
    exact hbelow j hj hjg
  · obtain ⟨hbelow, hu⟩ := decodeMiddle_eq_ok hmiddle
    have huinp : u.inp = s.inp := by rw [hu]; exact hinp
    split at hlast
    · refine ⟨G - 1, by omega, by omega, ?_, fun j hj hjG => ?_⟩
      · rw [← State.operandG8_congr huinp]
        exact decodeGroup_eq_error.1 hlast
      · rw [← State.operandG8_congr hinp]
        exact hbelow j hj (by omega)
    · cases hlast

theorem execDecode_eq_fault (h : execDecode s = .fault f) : s.len % 8 = 0 ∧ s.FirstMissing s.len f := by
  obtain ⟨h0, h8, he | ⟨y, hy, hk⟩⟩ := readHeader_eq_fault h
  · exact ⟨h8, .of_operandG8 he nofun (by omega)⟩
  · refine ⟨h8, ?_⟩
    rcases bind_eq_error_iff.1 (conclude_eq_fault.1 hk) with hdata | ⟨u, -, hret⟩
    · obtain ⟨g, h1, hg, he, hbelow⟩ := decodeData_eq_error hdata
      have hg : g < s.len / 8 := hg
      refine .of_operandG8 (s := s) he (fun j hj => ?_) (by omega)
      rcases Nat.eq_zero_or_pos j with rfl | hpos
      · exact ⟨y, hy⟩
      · exact hbelow j hpos hj
    · cases hret

/-- A command faults at the first cell of `IN` without a value, and only where it may read that cell. -/
theorem exec_eq_fault {i : Instr} (h : exec i s = .fault f) : s.FirstMissing (inputBound i s) f := by
  cases i with
  | pack => exact execPack_eq_fault h
  | unpack => exact execUnpack_eq_fault h
  | padenc =>
    simp only [exec, execPadenc, admitEncoded] at h
    split at h <;> cases h
  | paddec =>
    obtain ⟨h0, h8, hmissing⟩ := execPaddec_eq_fault h
    simpa [inputBound, h0, h8] using hmissing
  | encode => exact execEncode_eq_fault h
  | decode =>
    obtain ⟨h8, hmissing⟩ := execDecode_eq_fault h
    simpa [inputBound, h8] using hmissing

end

theorem not_admitted_of_refused {i : Instr} {s : State} {r : Refusal} (h : exec i s = .refused r) :
    admitted i s = false := by
  obtain ⟨rfl | rfl, hfits, -⟩ := (overlongEncodingsAreRefused i s r).1 h <;> exact hfits

/-- Settles O33: an admitted command that is not ready neither ends (O31) nor is refused (O32). -/
theorem readsOfUnwrittenInputFault : Obligations.ReadsOfUnwrittenInputFault := by
  refine ⟨fun i s ha hr => ?faults, fun i s f h => ?names⟩
  case faults =>
    cases h : exec i s with
    | next t => exact absurd (exec_next_ready h).2 hr
    | fault f => exact ⟨f, rfl⟩
    | refused r => simp [not_admitted_of_refused h] at ha
  case names =>
    obtain ⟨a, ha, hnone, rfl, hwritten⟩ := exec_eq_fault h
    exact ⟨a, ha, hnone, hwritten, missingIn_cases a⟩

/-! ## What the host does while BUSY -/

section
variable {s : State} (h : s.phase = .busy)
include h

theorem hostWriteCmd_of_busy (v : Nat) : hostWriteCmd v s = .refused .commandWhileBusy := by
  simp [hostWriteCmd, h]

theorem hostWriteLen_of_busy (n : Nat) : hostWriteLen n s = .refused .inputWriteWhileBusy := by
  simp [hostWriteLen, h]

theorem hostWriteIn_of_busy (a : Nat) (v : Byte) : hostWriteIn a v s = .refused .inputWriteWhileBusy := by
  simp [hostWriteIn, h]

theorem hostReadOut_of_busy (a : Nat) : hostReadOut a s = .refused .resultReadWhileBusy := by
  simp [hostReadOut, h]

theorem hostReadResult_of_busy (n v : Nat) : hostReadResult n v s = .refused .resultReadWhileBusy := by
  simp [hostReadResult, h]

theorem hostReadReg_of_busy {n : Nat} (h3 : 3 ≤ n) (h6 : n ≤ 6) :
    hostReadReg n s = .refused .resultReadWhileBusy := by
  interval_cases n <;> exact hostReadResult_of_busy h _ _

end

/-- Settles O54. -/
theorem hazardsWhileBusyAreRefused : Obligations.HazardsWhileBusyAreRefused := by
  intro s n a v h
  refine ⟨hostWriteIn_of_busy h a v, hostWriteLen_of_busy h n, hostWriteCmd_of_busy h n, hostReadOut_of_busy h a,
    fun r hr => ?results⟩
  case results =>
    have hrange : 3 ≤ r ∧ r ≤ 6 := by
      simp only [List.mem_cons, List.not_mem_nil, or_false] at hr
      omega
    exact hostReadReg_of_busy h hrange.1 hrange.2

/-! ## When an action of the host answers, and with what -/

section
variable {s t : State}

theorem hostWriteCmd_eq_next_iff {v : Nat} : hostWriteCmd v s = .next t ↔
    (s.phase = .idle ∧ v < 256 ∧ wordWellFormed (BitVec.ofNat 8 v) = true) ∧ s.start (BitVec.ofNat 8 v) = t := by
  rw [← decode_eq_ok_iff_wordWellFormed]
  cases hp : s.phase with
  | busy => simp [hostWriteCmd_of_busy hp]
  | idle =>
    by_cases hv : v < 256
    · cases hd : Sys2Proof.decode (BitVec.ofNat 8 v) <;> simp [hostWriteCmd, hp, hv, hd]
    · simp [hostWriteCmd, hp, hv]

theorem hostWriteLen_eq_next_iff {n : Nat} : hostWriteLen n s = .next t ↔
    (s.phase = .idle ∧ Config.fits n = true) ∧ s.withLen n = t := by
  cases hp : s.phase with
  | busy => simp [hostWriteLen_of_busy hp]
  | idle => cases hf : Config.fits n <;> simp [hostWriteLen_of_idle n hp, hf]

theorem hostWriteIn_eq_next_iff {a : Nat} {v : Byte} : hostWriteIn a v s = .next t ↔
    (s.phase = .idle ∧ Config.fits (a + 1) = true) ∧ s.withIn (s.inp.write a v) = t := by
  cases hp : s.phase with
  | busy => simp [hostWriteIn_of_busy hp]
  | idle => cases hf : Config.fits (a + 1) <;> simp [hostWriteIn, hp, hf]

theorem hostReadOut_eq_next_iff {a : Nat} : hostReadOut a s = .next t ↔
    (s.phase = .idle ∧ a < s.olen) ∧ ∃ v, s.out.read a = some v ∧ s.observe (.outByte a v) = t := by
  cases hp : s.phase with
  | busy => simp [hostReadOut_of_busy hp]
  | idle =>
    by_cases ha : a < s.olen
    · cases hv : s.out.read a <;> simp [hostReadOut, hp, ha, hv]
    · simp [hostReadOut_of_olen_le hp (Nat.not_lt.1 ha), ha]

theorem State.phase_idle_or_busy (s : State) : s.phase = .idle ∨ s.phase = .busy := by
  cases s.phase <;> decide

/-- `CMD`, `LEN` and `STATUS` answer in either phase. -/
theorem hostReadReg_of_lt_three {n : Nat} (hn : n < 3) :
    ∃ host draws, hostReadReg n s = .next { s with host := host, draws := draws } := by
  interval_cases n
  · exact ⟨_, s.draws, rfl⟩
  · exact ⟨_, s.draws, rfl⟩
  · rcases s.phase_idle_or_busy with hidle | hbusy
    · exact ⟨_, s.draws, hostReadStatus_of_idle hidle⟩
    · exact ⟨_, _, hostReadStatus_of_busy hbusy⟩

theorem hostReadReg_of_may {n : Nat} (h : n < 3 ∨ n < 7 ∧ s.phase = .idle) :
    ∃ host draws, hostReadReg n s = .next { s with host := host, draws := draws } := by
  rcases h with hn | ⟨hn, hidle⟩
  · exact hostReadReg_of_lt_three hn
  · obtain ⟨o, ho⟩ := hostReadReg_of_idle hidle hn
    exact ⟨_, s.draws, ho⟩

theorem may_of_hostReadReg {n : Nat} (h : hostReadReg n s = .next t) : n < 3 ∨ n < 7 ∧ s.phase = .idle := by
  by_contra hnot
  rcases Nat.lt_or_ge n 7 with hn | hn
  · have hbusy : s.phase = .busy := s.phase_idle_or_busy.resolve_left fun hidle => hnot (.inr ⟨hn, hidle⟩)
    rw [hostReadReg_of_busy hbusy (by omega) (by omega)] at h
    cases h
  · rw [(hostReg_of_seven_le 0 hn).2] at h
    cases h

/-! ## The host's liberties -/

theorem hostMay_of_hostAct {a : HostAction} (h : hostAct a s = .next t) : hostMay a s := by
  cases a with
  | writeReg n v =>
    match n with
    | 0 => exact (hostWriteCmd_eq_next_iff.1 h).1
    | 1 => exact (hostWriteLen_eq_next_iff.1 h).1
    | n + 2 =>
      show n + 2 < 7
      by_contra hn
      cases (hostReg_of_seven_le v (Nat.not_lt.1 hn)).1.symm.trans h
  | readReg n => exact may_of_hostReadReg h
  | writeIn a v => exact (hostWriteIn_eq_next_iff.1 h).1
  | readOut a => exact (hostReadOut_eq_next_iff.1 h).1
  | reset => trivial

theorem hostAct_of_hostMay {a : HostAction} (hs : s.Inv) (h : hostMay a s) : ∃ t, hostAct a s = .next t := by
  cases a with
  | writeReg n v =>
    match n with
    | 0 => exact ⟨_, hostWriteCmd_eq_next_iff.2 ⟨h, rfl⟩⟩
    | 1 => exact ⟨_, hostWriteLen_eq_next_iff.2 ⟨h, rfl⟩⟩
    | n + 2 => exact ⟨s, hostWriteReg_of_readOnly v (by omega) (Nat.le_of_lt_succ h)⟩
  | readReg n =>
    obtain ⟨host, draws, hnext⟩ := hostReadReg_of_may h
    exact ⟨_, hnext⟩
  | writeIn a v => exact ⟨_, hostWriteIn_eq_next_iff.2 ⟨h, rfl⟩⟩
  | readOut a =>
    obtain ⟨v, hv⟩ := Option.isSome_iff_exists.1 (hs.out_read_isSome_iff.2 h.2)
    exact ⟨_, hostReadOut_eq_next_iff.2 ⟨h, v, hv, rfl⟩⟩
  | reset => exact ⟨_, rfl⟩

end

/-- Settles O56. -/
theorem hostActsExactlyAsItMay : Obligations.HostActsExactlyAsItMay :=
  fun _ _ hs => ⟨fun ⟨_, h⟩ => hostMay_of_hostAct h, hostAct_of_hostMay hs⟩

/-- Settles O55: the next state of each action, from which the results, the windows and `GI` are read off. -/
theorem hostActionsKeepTheResults : Obligations.HostActionsKeepTheResults := by
  intro a s t ha h
  cases a with
  | writeReg n v =>
    match n with
    | 0 =>
      obtain ⟨-, rfl⟩ := hostWriteCmd_eq_next_iff.1 h
      exact ⟨rfl, rfl, rfl, rfl⟩
    | 1 =>
      obtain ⟨-, rfl⟩ := hostWriteLen_eq_next_iff.1 h
      exact ⟨rfl, rfl, rfl, rfl⟩
    | n + 2 =>
      have hn : n + 2 < 7 := hostMay_of_hostAct h
      cases (hostWriteReg_of_readOnly v (by omega) (by omega)).symm.trans h
      exact ⟨rfl, rfl, rfl, rfl⟩
  | readReg n =>
    obtain ⟨host, draws, hnext⟩ := hostReadReg_of_may (may_of_hostReadReg h)
    cases hnext.symm.trans h
    exact ⟨rfl, rfl, rfl, rfl⟩
  | writeIn a v =>
    obtain ⟨-, rfl⟩ := hostWriteIn_eq_next_iff.1 h
    exact ⟨rfl, rfl, rfl, rfl⟩
  | readOut a =>
    obtain ⟨-, v, -, rfl⟩ := hostReadOut_eq_next_iff.1 h
    exact ⟨rfl, rfl, rfl, rfl⟩
  | reset => exact absurd rfl ha

/-! ## Reset -/

/-- Settles O9: after the reset event the block is IDLE with `OLEN` = 0, so every read of `OUT` is at or above `OLEN`. -/
theorem resetEventAbandonsTheCommand : Obligations.ResetEventAbandonsTheCommand :=
  fun s => ⟨s.applyReset, rfl, rfl, rfl, rfl, rfl, rfl, rfl, rfl, rfl, rfl, Memory.read_nil, Memory.read_nil, rfl,
    fun a => hostReadOut_of_olen_le (s := s.applyReset) rfl (Nat.zero_le a)⟩

/-- Settles O37: the state after reset is what the reset event makes of itself. -/
theorem resetHasTheInvariant : Obligations.ResetHasTheInvariant :=
  State.applyReset_inv State.reset

end Sys2Proof.Machine
